-- ==== Sys2Proof/Word.lean ====
section
/-!
DEFINITION. The word types of the CORE (spec/00_scope.md R10, R11; spec/10_state.md R21, R26).
-/

namespace Sys2Proof

/-- An 8-bit byte: a memory cell, a general register, a timer (R21, R32, R60). -/
abbrev Byte := BitVec 8

/-- A 16-bit word: an instruction word, `I`, `pc`, a return address (R26, R27, R30, R90). -/
abbrev Word := BitVec 16

/-- A 4-bit field of an instruction word: a register index, a sprite height, a key (R91, R92). -/
abbrev Nibble := BitVec 4

/-- The 12-bit address field `NNN` of an instruction word (R91, R92). -/
abbrev Addr12 := BitVec 12

end Sys2Proof
end

