-- ==== Sys2Proof/Syntax.lean ====
section
/-!
DEFINITION. The 35 instructions of spec/30_encoding.md R94, each carrying only the operands it
needs (R102). `x`, `y` are register indices, `nn` and `n` unsigned constants, `nnn` an address
(R92).
-/

namespace Sys2Proof

/-- One constructor per row of spec/opcode_table.json, in the table's order. -/
inductive Instr where
  /-- `0NNN` other than `00E0` and `00EE`: `SYS nnn` (R283). -/
  | sys (nnn : Addr12)
  /-- `00E0`: `CLS` (R240). -/
  | clearScreen
  /-- `00EE`: `RET` (R162). -/
  | ret
  /-- `1NNN`: `JP nnn` (R160). -/
  | jump (nnn : Addr12)
  /-- `2NNN`: `CALL nnn` (R161). -/
  | call (nnn : Addr12)
  /-- `3XNN`: `SE Vx, nn` (R163). -/
  | skipEqConst (x : Nibble) (nn : Byte)
  /-- `4XNN`: `SNE Vx, nn` (R164). -/
  | skipNeConst (x : Nibble) (nn : Byte)
  /-- `5XY0`: `SE Vx, Vy` (R165). -/
  | skipEqReg (x y : Nibble)
  /-- `6XNN`: `LD Vx, nn` (R182). -/
  | setConst (x : Nibble) (nn : Byte)
  /-- `7XNN`: `ADD Vx, nn` (R183). -/
  | addConst (x : Nibble) (nn : Byte)
  /-- `8XY0`: `LD Vx, Vy` (R184). -/
  | setReg (x y : Nibble)
  /-- `8XY1`: `OR Vx, Vy` (R185). -/
  | orReg (x y : Nibble)
  /-- `8XY2`: `AND Vx, Vy` (R186). -/
  | andReg (x y : Nibble)
  /-- `8XY3`: `XOR Vx, Vy` (R187). -/
  | xorReg (x y : Nibble)
  /-- `8XY4`: `ADD Vx, Vy` (R188). -/
  | addReg (x y : Nibble)
  /-- `8XY5`: `SUB Vx, Vy` (R189). -/
  | sub (x y : Nibble)
  /-- `8XY6`: `SHR Vx`; the Y field is decoded and ignored (R101, R190). -/
  | shiftRight (x : Nibble)
  /-- `8XY7`: `SUBN Vx, Vy` (R191). -/
  | subReverse (x y : Nibble)
  /-- `8XYE`: `SHL Vx`; the Y field is decoded and ignored (R101, R192). -/
  | shiftLeft (x : Nibble)
  /-- `9XY0`: `SNE Vx, Vy` (R166). -/
  | skipNeReg (x y : Nibble)
  /-- `ANNN`: `LD I, nnn` (R211). -/
  | setI (nnn : Addr12)
  /-- `BNNN`: `JP V0, nnn` (R167). -/
  | jumpOffset (nnn : Addr12)
  /-- `CXNN`: `RND Vx, nn` (R193). -/
  | random (x : Nibble) (nn : Byte)
  /-- `DXYN`: `DRW Vx, Vy, n` (R242). -/
  | draw (x y n : Nibble)
  /-- `EX9E`: `SKP Vx` (R280). -/
  | skipKeyPressed (x : Nibble)
  /-- `EXA1`: `SKNP Vx` (R281). -/
  | skipKeyNotPressed (x : Nibble)
  /-- `FX07`: `LD Vx, DT` (R260). -/
  | getDelay (x : Nibble)
  /-- `FX0A`: `LD Vx, K` (R282). -/
  | awaitInput (x : Nibble)
  /-- `FX15`: `LD DT, Vx` (R261). -/
  | setDelay (x : Nibble)
  /-- `FX18`: `LD ST, Vx` (R262). -/
  | setSound (x : Nibble)
  /-- `FX1E`: `ADD I, Vx` (R212). -/
  | addI (x : Nibble)
  /-- `FX29`: `LD F, Vx` (R216). -/
  | fontChar (x : Nibble)
  /-- `FX33`: `LD B, Vx` (R213). -/
  | bcd (x : Nibble)
  /-- `FX55`: `LD [I], Vx` (R214). -/
  | dump (x : Nibble)
  /-- `FX65`: `LD Vx, [I]` (R215). -/
  | load (x : Nibble)
  deriving DecidableEq, Repr

end Sys2Proof
end

