-- ==== Sys2Proof/WellFormed.lean ====
section
/-!
DEFINITION. Which instruction terms stand for a word (spec/30_encoding.md R94, R95). The field
widths of R91 are in the types, so one check is left: `SYS nnn` is every word of group 0 but `00E0`
and `00EE`, so those two values of `nnn` make no `SYS`.
-/

namespace Sys2Proof

/-- `SYS`'s operand is neither of the two words of group 0 that are other instructions (R95). -/
def sysOperandOk (nnn : Addr12) : Bool := nnn != 0x0E0#12 && nnn != 0x0EE#12

/-- The instruction term is the meaning of some word (R93 to R100). -/
def Instr.wellFormed : Instr → Bool
  | .sys nnn => sysOperandOk nnn
  | .clearScreen => true
  | .ret => true
  | .jump _ => true
  | .call _ => true
  | .skipEqConst _ _ => true
  | .skipNeConst _ _ => true
  | .skipEqReg _ _ => true
  | .setConst _ _ => true
  | .addConst _ _ => true
  | .setReg _ _ => true
  | .orReg _ _ => true
  | .andReg _ _ => true
  | .xorReg _ _ => true
  | .addReg _ _ => true
  | .sub _ _ => true
  | .shiftRight _ => true
  | .subReverse _ _ => true
  | .shiftLeft _ => true
  | .skipNeReg _ _ => true
  | .setI _ => true
  | .jumpOffset _ => true
  | .random _ _ => true
  | .draw _ _ _ => true
  | .skipKeyPressed _ => true
  | .skipKeyNotPressed _ => true
  | .getDelay _ => true
  | .awaitInput _ => true
  | .setDelay _ => true
  | .setSound _ => true
  | .addI _ => true
  | .fontChar _ => true
  | .bcd _ => true
  | .dump _ => true
  | .load _ => true

end Sys2Proof
end

