-- ==== Sys2Proof/Decode.lean ====
section
/-!
DEFINITION. The decoder of spec/30_encoding.md R93 to R103, total on every word and on any bytes,
and the encoder written from the same table (R94).
-/

namespace Sys2Proof

/-- Why bytes are no instruction. -/
inductive DecodeError where
  /-- The word matches none of the 35 patterns (R93, R103). -/
  | unknownOpcode (w : Word)
  /-- Fewer than two bytes were given. -/
  | truncated
  deriving DecidableEq, Repr

/-- The 16-bit word of two bytes, the byte at the lower address in bits 15 to 8 (R64). -/
def wordOfBytes (hi lo : Byte) : Word := hi ++ lo

/-- The byte of a word that lies at the lower address: bits 15 to 8 (R64). -/
def highByte (w : Word) : Byte := w.extractLsb' 8 8

/-- The byte of a word that lies at the higher address: bits 7 to 0 (R64). -/
def lowByte (w : Word) : Byte := w.extractLsb' 0 8

/-- The field `C`, bits 15 to 12 (R91). -/
def fieldC (w : Word) : Nibble := w.extractLsb' 12 4

/-- The field `X`, bits 11 to 8 (R91). -/
def fieldX (w : Word) : Nibble := w.extractLsb' 8 4

/-- The field `Y`, bits 7 to 4 (R91). -/
def fieldY (w : Word) : Nibble := w.extractLsb' 4 4

/-- The field `N`, bits 3 to 0 (R91). -/
def fieldN (w : Word) : Nibble := w.extractLsb' 0 4

/-- The field `NN`, bits 7 to 0 (R91). -/
def fieldNN (w : Word) : Byte := w.extractLsb' 0 8

/-- The field `NNN`, bits 11 to 0 (R91). -/
def fieldNNN (w : Word) : Addr12 := w.extractLsb' 0 12

/-- Group `C = 0`: every word is legal (R95). -/
def decodeGroup0 (w : Word) : Instr :=
  if w = 0x00E0#16 then .clearScreen
  else if w = 0x00EE#16 then .ret
  else .sys (fieldNNN w)

/-- Group `C = 8`: `N` selects the operation (R98). -/
def decodeGroup8 (w : Word) : Except DecodeError Instr :=
  match (fieldN w).toNat with
  | 0x0 => .ok (.setReg (fieldX w) (fieldY w))
  | 0x1 => .ok (.orReg (fieldX w) (fieldY w))
  | 0x2 => .ok (.andReg (fieldX w) (fieldY w))
  | 0x3 => .ok (.xorReg (fieldX w) (fieldY w))
  | 0x4 => .ok (.addReg (fieldX w) (fieldY w))
  | 0x5 => .ok (.sub (fieldX w) (fieldY w))
  | 0x6 => .ok (.shiftRight (fieldX w))
  | 0x7 => .ok (.subReverse (fieldX w) (fieldY w))
  | 0xE => .ok (.shiftLeft (fieldX w))
  | _ => .error (.unknownOpcode w)

/-- Group `C = 0xE`: `NN` selects the operation (R99). -/
def decodeGroupE (w : Word) : Except DecodeError Instr :=
  match (fieldNN w).toNat with
  | 0x9E => .ok (.skipKeyPressed (fieldX w))
  | 0xA1 => .ok (.skipKeyNotPressed (fieldX w))
  | _ => .error (.unknownOpcode w)

/-- Group `C = 0xF`: `NN` selects the operation (R100). -/
def decodeGroupF (w : Word) : Except DecodeError Instr :=
  match (fieldNN w).toNat with
  | 0x07 => .ok (.getDelay (fieldX w))
  | 0x0A => .ok (.awaitInput (fieldX w))
  | 0x15 => .ok (.setDelay (fieldX w))
  | 0x18 => .ok (.setSound (fieldX w))
  | 0x1E => .ok (.addI (fieldX w))
  | 0x29 => .ok (.fontChar (fieldX w))
  | 0x33 => .ok (.bcd (fieldX w))
  | 0x55 => .ok (.dump (fieldX w))
  | 0x65 => .ok (.load (fieldX w))
  | _ => .error (.unknownOpcode w)

/-- `decode(w)` (R93): the instruction a word stands for, or `unknownOpcode`. -/
def decode (w : Word) : Except DecodeError Instr :=
  match (fieldC w).toNat with
  | 0x0 => .ok (decodeGroup0 w)
  | 0x1 => .ok (.jump (fieldNNN w))
  | 0x2 => .ok (.call (fieldNNN w))
  | 0x3 => .ok (.skipEqConst (fieldX w) (fieldNN w))
  | 0x4 => .ok (.skipNeConst (fieldX w) (fieldNN w))
  | 0x5 => if fieldN w = 0x0#4 then .ok (.skipEqReg (fieldX w) (fieldY w))
           else .error (.unknownOpcode w)
  | 0x6 => .ok (.setConst (fieldX w) (fieldNN w))
  | 0x7 => .ok (.addConst (fieldX w) (fieldNN w))
  | 0x8 => decodeGroup8 w
  | 0x9 => if fieldN w = 0x0#4 then .ok (.skipNeReg (fieldX w) (fieldY w))
           else .error (.unknownOpcode w)
  | 0xA => .ok (.setI (fieldNNN w))
  | 0xB => .ok (.jumpOffset (fieldNNN w))
  | 0xC => .ok (.random (fieldX w) (fieldNN w))
  | 0xD => .ok (.draw (fieldX w) (fieldY w) (fieldN w))
  | 0xE => decodeGroupE w
  | 0xF => decodeGroupF w
  | _ => .error (.unknownOpcode w)

/-- Decoding of bytes as they lie in memory: the instruction and the bytes after it (R90, R105). -/
def decodeBytes : List Byte → Except DecodeError (Instr × List Byte)
  | hi :: lo :: rest =>
    match decode (wordOfBytes hi lo) with
    | .ok i => .ok (i, rest)
    | .error e => .error e
  | _ => .error .truncated

/-- The word `w` whose bits above `nbits` are 0, of an instruction of at most 16 bits. -/
def tableWord (nbits w : Nat) : Word := BitVec.ofNat 16 (w % 2 ^ nbits)

/-- What the decoder reads from an opcode-table word: the word's bytes laid out as memory holds
them, given to the decoder (DESIGN CHOICE, log 7). -/
def decodeTableWord (nbits w : Nat) : Option Instr :=
  if nbits ≤ 16 then
    match decodeBytes [highByte (tableWord nbits w), lowByte (tableWord nbits w)] with
    | .ok (i, _) => some i
    | .error _ => none
  else none

/-- A word from `C` and `NNN` (R91). -/
def packNNN (c : Nibble) (nnn : Addr12) : Word := c ++ nnn

/-- A word from `C`, `X` and `NN` (R91). -/
def packXNN (c x : Nibble) (nn : Byte) : Word := c ++ x ++ nn

/-- A word from `C`, `X`, `Y` and `N` (R91). -/
def packXYN (c x y n : Nibble) : Word := c ++ x ++ y ++ n

/-- The word of an instruction (R94); the ignored Y of `8XY6` and `8XYE` is written 0 (R101). -/
def encode : Instr → Word
  | .sys nnn => packNNN 0x0#4 nnn
  | .clearScreen => 0x00E0#16
  | .ret => 0x00EE#16
  | .jump nnn => packNNN 0x1#4 nnn
  | .call nnn => packNNN 0x2#4 nnn
  | .skipEqConst x nn => packXNN 0x3#4 x nn
  | .skipNeConst x nn => packXNN 0x4#4 x nn
  | .skipEqReg x y => packXYN 0x5#4 x y 0x0#4
  | .setConst x nn => packXNN 0x6#4 x nn
  | .addConst x nn => packXNN 0x7#4 x nn
  | .setReg x y => packXYN 0x8#4 x y 0x0#4
  | .orReg x y => packXYN 0x8#4 x y 0x1#4
  | .andReg x y => packXYN 0x8#4 x y 0x2#4
  | .xorReg x y => packXYN 0x8#4 x y 0x3#4
  | .addReg x y => packXYN 0x8#4 x y 0x4#4
  | .sub x y => packXYN 0x8#4 x y 0x5#4
  | .shiftRight x => packXYN 0x8#4 x 0x0#4 0x6#4
  | .subReverse x y => packXYN 0x8#4 x y 0x7#4
  | .shiftLeft x => packXYN 0x8#4 x 0x0#4 0xE#4
  | .skipNeReg x y => packXYN 0x9#4 x y 0x0#4
  | .setI nnn => packNNN 0xA#4 nnn
  | .jumpOffset nnn => packNNN 0xB#4 nnn
  | .random x nn => packXNN 0xC#4 x nn
  | .draw x y n => packXYN 0xD#4 x y n
  | .skipKeyPressed x => packXNN 0xE#4 x 0x9E#8
  | .skipKeyNotPressed x => packXNN 0xE#4 x 0xA1#8
  | .getDelay x => packXNN 0xF#4 x 0x07#8
  | .awaitInput x => packXNN 0xF#4 x 0x0A#8
  | .setDelay x => packXNN 0xF#4 x 0x15#8
  | .setSound x => packXNN 0xF#4 x 0x18#8
  | .addI x => packXNN 0xF#4 x 0x1E#8
  | .fontChar x => packXNN 0xF#4 x 0x29#8
  | .bcd x => packXNN 0xF#4 x 0x33#8
  | .dump x => packXNN 0xF#4 x 0x55#8
  | .load x => packXNN 0xF#4 x 0x65#8

/-- The bytes of an instruction in the order memory holds them (R64, R90). -/
def encodeBytes (i : Instr) : List Byte := [highByte (encode i), lowByte (encode i)]

end Sys2Proof
end

