-- ==== Sys2Proof/Config.lean ====
section
/-!
DEFINITION. The implementation parameters of spec/00_scope.md R9, and the free values. An `opaque`
constant has no body: nothing proved about the model depends on its value.
-/

namespace Sys2Proof.Config

/-- `MEM_SIZE` (R9, R60). -/
abbrev memSize : Nat := 4096

/-- `PROGRAM_BASE`, also `PC_RESET` (R9, R29). -/
abbrev programBase : Nat := 0x200

/-- `MAX_PROGRAM_LEN` (R9, R341). -/
abbrev maxProgramLen : Nat := memSize - programBase

/-- `FONT_GLYPH_BYTES` (R9, R69). -/
abbrev fontGlyphBytes : Nat := 5

/-- `STACK_DEPTH` (R9, R31). -/
abbrev stackDepth : Nat := 16

/-- `FB_WIDTH` (R9, R36). -/
abbrev fbWidth : Nat := 64

/-- `FB_HEIGHT` (R9, R36). -/
abbrev fbHeight : Nat := 32

/-- `NUM_KEYS` (R9, R46). -/
abbrev numKeys : Nat := 16

/-- The two values of the open parameter `VF_ALIAS_ORDER` (R148). -/
inductive VfAliasOrder where
  /-- The result is written first and the flag last. -/
  | flagWins
  /-- The flag is written first and the result last. -/
  | resultWins
  deriving DecidableEq, Repr, Inhabited

/-- `VF_ALIAS_ORDER`, open (R9, R148, D7; DESIGN CHOICE, log 9): one value for the machine, no
claim knows which. -/
opaque vfAliasOrder : VfAliasOrder

/-- `KEY_ORACLE`, open (R9, R47, D16; DESIGN CHOICE, log 10): a function of the key state that
picks among the
pressed keys; `Sys2Proof.Machine.firstPressed` says how the pick is bounded to a pressed key. -/
opaque keyOracle : BitVec 16 → Nat

/-- `RNG`, open (R9, R193, D12; DESIGN CHOICE, log 8): the byte of draw number `n`, under no law. -/
opaque rng : Nat → Byte

/-- `CYCLE_PERIOD`, open (R9, D23; DEDUCED, log 11). No rule and no definition of the model uses
it. -/
opaque cyclePeriod : Nat

/-- `TICK_PERIOD`, open (R9, D23; DEDUCED, log 11). No rule and no definition of the model uses it.
-/
opaque tickPeriod : Nat

/-- The byte at an address after the fault with draw number `n` (R306; DESIGN CHOICE, log 1). -/
opaque afterFaultMem : Nat → Nat → Byte

/-- A general register after the fault with draw number `n` (R306; DESIGN CHOICE, log 1). -/
opaque afterFaultV : Nat → Nat → Byte

/-- `I` after the fault with draw number `n` (R306; DESIGN CHOICE, log 1). -/
opaque afterFaultI : Nat → Word

/-- `pc` after the fault with draw number `n` (R306; DESIGN CHOICE, log 1). -/
opaque afterFaultPc : Nat → Word

/-- How many entries the call stack holds after the fault with draw number `n` (R306; DESIGN
CHOICE, log 1). -/
opaque afterFaultDepth : Nat → Nat

/-- A call-stack entry after the fault with draw number `n` (R306; DESIGN CHOICE, log 1). -/
opaque afterFaultEntry : Nat → Nat → Word

/-- `DT` after the fault with draw number `n` (R306; DESIGN CHOICE, log 1). -/
opaque afterFaultDt : Nat → Byte

/-- `ST` after the fault with draw number `n` (R306; DESIGN CHOICE, log 1). -/
opaque afterFaultSt : Nat → Byte

/-- A framebuffer pixel after the fault with draw number `n` (R306; DESIGN CHOICE, log 1). -/
opaque afterFaultPixel : Nat → Nat → Nat → Bool

end Sys2Proof.Config
end

