-- ==== Sys2Proof/Machine/State.lean ====
section
/-!
DEFINITION. The state of the CORE as plain data (spec/10_state.md R20), the host's inputs (R45,
R354), the two ways a step can stop, and the state after reset (R41).
-/

namespace Sys2Proof.Machine

/-- `Mem`, 4096 bytes (R37, R60), as the list of the cells that differ from the contents `Mem` has
before anything is written, in rising order of address; `Memory.wf` states the form. -/
abbrev Memory := List Host.Cell

/-- `V[0]` to `V[15]` (R21). -/
abbrev Regs := Vector Byte 16

/-- `FB[x][y]`, 64 columns of 32 one-bit pixels (R36). -/
abbrev Framebuffer := Vector (Vector Bool 32) 64

/-- What `MemoryOutOfRange` records (R300). -/
inductive RangeInfo where
  /-- `Addr a`: the first invalid address. -/
  | addr (a : Nat)
  /-- `StackFull`: a `CALL` with 16 entries on the stack. -/
  | stackFull
  deriving DecidableEq, Repr

/-- The five faults with the information each records (R300). -/
inductive FaultCause where
  /-- Code 1, from decode: the word and its address (R301). -/
  | unknownOpcode (w pc : Word)
  /-- Code 2, from `RET`: its address (R302). -/
  | stackUnderflow (pc : Word)
  /-- Code 3, from `LD F, Vx`: the register's value (R303). -/
  | invalidFontIndex (v : Byte)
  /-- Code 4, from a fetch, a data access or a `CALL` (R304). -/
  | memoryOutOfRange (info : RangeInfo)
  /-- Code 5, from `SKP` and `SKNP`: the register's value (R305). -/
  | invalidKeyIndex (k : Byte)
  deriving DecidableEq, Repr

/-- The fault latch `F` (R35). -/
inductive Latch where
  | running
  | faulted (cause : FaultCause)
  deriving DecidableEq, Repr

/-- What the host can do to the core, one step each (R45, R46, R358; DESIGN CHOICE, log 3, log 5).
-/
inductive HostAction where
  /-- A `cycle` strobe: perform one cycle step (R140). -/
  | cycle
  /-- A `tick` strobe: perform one tick step (R320). -/
  | tick
  /-- `press(k)` on the key port (R46). -/
  | press (k : Nibble)
  /-- `release(k)` on the key port (R46). -/
  | release (k : Nibble)
  /-- `load(image)`: reset, and load a program (R340). -/
  | load (image : List Byte)
  deriving DecidableEq, Repr

/-- The machine: the tuple of R20, then the inputs, then the model's own counter. -/
structure State where
  /-- `Mem` (R37). -/
  mem : Memory
  /-- `V[0..15]` (R21). -/
  v : Regs
  /-- `I` (R26). -/
  i : Word
  /-- `pc` (R27). -/
  pc : Word
  /-- `S`, the top first (R30; DESIGN CHOICE, log 21). -/
  stack : List Word
  /-- `DT` (R32). -/
  dt : Byte
  /-- `ST` (R33). -/
  st : Byte
  /-- `F` (R35). -/
  latch : Latch
  /-- `FB` (R36). -/
  fb : Framebuffer
  /-- INPUT: the key state at the key port, bit `k` set while key `k` is pressed (R46, R50; DESIGN
  CHOICE, log 4). -/
  keys : BitVec 16
  /-- INPUT: the host's coming actions, the next one first; when there is none the host issues
  `cycle` (R354; DESIGN CHOICE, log 3). -/
  schedule : List HostAction
  /-- MODEL'S OWN: the number of the next free value (R193, R306; DESIGN CHOICE, log 8). -/
  draws : Nat
  deriving DecidableEq, Repr

/-- Why a step ends with no next state because the machine stands still. -/
inductive Fault where
  /-- Raised by a `cycle` or `tick` strobe while `F = Faulted(cause)`, which the core refuses
  (R151, R308; DESIGN CHOICE, log 2). Safe: no step is taken and nothing can be proved of one. -/
  | coreStopped (cause : FaultCause)
  deriving DecidableEq, Repr

/-- Why a step ends with no next state because the input has no meaning. -/
inductive Refusal where
  /-- Raised by an arm of `exec` whose instruction has no meaning in the model. Safe. -/
  | notModelled (mnemonic : String)
  /-- Raised by `load(image)` with an image of more than 3584 bytes, which the spec refuses:
  no core state is produced (R340, R341; DESIGN CHOICE, log 22). Safe. -/
  | imageTooLong (length : Nat)
  deriving DecidableEq, Repr

/-- The core after `load` of the empty image (R41, R340, R341; DESIGN CHOICE, log 6): nothing
listed in memory,
so the font at 0x000 and zero elsewhere; no key pressed and no action scheduled (DESIGN CHOICE,
log 3, log 4). -/
def State.reset : State where
  mem := []
  v := Vector.replicate 16 0x00#8
  i := 0x0000#16
  pc := 0x0200#16
  stack := []
  dt := 0x00#8
  st := 0x00#8
  latch := .running
  fb := Vector.replicate 64 (Vector.replicate 32 false)
  keys := 0x0000#16
  schedule := []
  draws := 0

end Sys2Proof.Machine
end

