-- ==== Sys2Proof/Machine/Ops.lean ====
section
/-!
DEFINITION. The named operations over memory, registers, stack, framebuffer, key port and timers,
the pc-advance states, and taking a fault. Every instruction's meaning is built from these.
-/

namespace Sys2Proof.Machine

/-! ### Memory (spec/20_memory.md) -/

/-- `FONT`: the 16 glyphs of 5 bytes (R69). -/
def fontBytes : List Byte :=
  [0xF0#8, 0x90#8, 0x90#8, 0x90#8, 0xF0#8] ++
  [0x20#8, 0x60#8, 0x20#8, 0x20#8, 0x70#8] ++
  [0xF0#8, 0x10#8, 0xF0#8, 0x80#8, 0xF0#8] ++
  [0xF0#8, 0x10#8, 0xF0#8, 0x10#8, 0xF0#8] ++
  [0x90#8, 0x90#8, 0xF0#8, 0x10#8, 0x10#8] ++
  [0xF0#8, 0x80#8, 0xF0#8, 0x10#8, 0xF0#8] ++
  [0xF0#8, 0x80#8, 0xF0#8, 0x90#8, 0xF0#8] ++
  [0xF0#8, 0x10#8, 0x20#8, 0x40#8, 0x40#8] ++
  [0xF0#8, 0x90#8, 0xF0#8, 0x90#8, 0xF0#8] ++
  [0xF0#8, 0x90#8, 0xF0#8, 0x10#8, 0xF0#8] ++
  [0xF0#8, 0x90#8, 0xF0#8, 0x90#8, 0x90#8] ++
  [0xE0#8, 0x90#8, 0xE0#8, 0x90#8, 0xE0#8] ++
  [0xF0#8, 0x80#8, 0x80#8, 0x80#8, 0xF0#8] ++
  [0xE0#8, 0x90#8, 0x90#8, 0x90#8, 0xE0#8] ++
  [0xF0#8, 0x80#8, 0xF0#8, 0x80#8, 0xF0#8] ++
  [0xF0#8, 0x80#8, 0xF0#8, 0x80#8, 0x80#8]

/-- What an address reads as before anything is written to it: the font from 0x000, and 0x00 after
it (R41, R68). -/
def resetByte (a : Nat) : Byte := fontBytes.getD a 0x00#8

/-- The byte at an address: the listed one, or the one of reset (R67). -/
def Memory.read : Memory → Nat → Byte
  | [], a => resetByte a
  | (k, b) :: rest, a => if k = a then b else Memory.read rest a

/-- List the byte `b` at `a`, in its place in the rising order. -/
def Memory.insert (a : Nat) (b : Byte) : Memory → Memory
  | [] => [(a, b)]
  | (k, c) :: rest =>
    if a < k then (a, b) :: (k, c) :: rest
    else if a = k then (a, b) :: rest
    else (k, c) :: Memory.insert a b rest

/-- List nothing at `a`. -/
def Memory.erase (a : Nat) : Memory → Memory
  | [] => []
  | (k, c) :: rest => if k = a then rest else (k, c) :: Memory.erase a rest

/-- Write a byte; a write of the byte of reset removes the entry. -/
def Memory.write (m : Memory) (a : Nat) (b : Byte) : Memory :=
  if b = resetByte a then Memory.erase a m else Memory.insert a b m

/-- The canonical form: addresses strictly rising and inside the space (R60), and no entry equal to
what the address reads as unlisted. -/
abbrev Memory.wf (m : Memory) : Prop :=
  m.Pairwise (fun c d => c.1 < d.1) ∧
    ∀ c ∈ m, c.1 < Config.memSize ∧ c.2 ≠ resetByte c.1

/-- Write bytes at ascending addresses from `a`, without a bounds check. -/
def Memory.writeAll : Memory → Nat → List Byte → Memory
  | m, _, [] => m
  | m, a, b :: bs => Memory.writeAll (Memory.write m a b) (a + 1) bs

/-- The memory that holds `f a` at every address `a` of the space. -/
@[irreducible] def Memory.ofBytes (f : Nat → Byte) : Memory :=
  (List.range Config.memSize).filterMap
    (fun a => if f a = resetByte a then none else some (a, f a))

/-- `MemRead(a, 1)` (R12, R62). -/
def memRead (a : Nat) (s : State) : Except FaultCause Byte :=
  if a < Config.memSize then .ok (s.mem.read a)
  else .error (.memoryOutOfRange (.addr a))

/-- `MemWrite(a, 1, b)` (R12, R62). -/
def memWrite (a : Nat) (b : Byte) (s : State) : Except FaultCause State :=
  if a < Config.memSize then .ok { s with mem := s.mem.write a b }
  else .error (.memoryOutOfRange (.addr a))

/-- `MemRead` of `n` bytes at ascending addresses from `a`; the first invalid address is the one
reported (R65, R72). -/
def loadBytes (s : State) : Nat → Nat → Except FaultCause (List Byte)
  | _, 0 => .ok []
  | a, n + 1 =>
    match memRead a s with
    | .error c => .error c
    | .ok b =>
      match loadBytes s (a + 1) n with
      | .error c => .error c
      | .ok bs => .ok (b :: bs)

/-- `MemWrite` of bytes at ascending addresses from `a`; the first invalid address is the one
reported (R65, R72). -/
def storeBytes : Nat → List Byte → State → Except FaultCause State
  | _, [], s => .ok s
  | a, b :: bs, s =>
    match memWrite a b s with
    | .error c => .error c
    | .ok t => storeBytes (a + 1) bs t

/-! ### General registers (spec/10_state.md R21 to R25) -/

/-- The index of `VF`, the flag register (R23). -/
def vf : Nibble := 0xF#4

/-- `V[r]` (R12, R22). -/
def State.getV (s : State) (r : Nibble) : Byte := s.v[r.toNat]'(r.isLt)

/-- `V[r] <- b` (R12, R22). -/
def State.setV (s : State) (r : Nibble) (b : Byte) : State :=
  { s with v := s.v.set r.toNat b r.isLt }

/-- `V[k], V[k+1], ...` written with the bytes of a list, those past `V[15]` dropped. -/
def Regs.writeFrom : Regs → Nat → List Byte → Regs
  | v, _, [] => v
  | v, k, b :: bs => Regs.writeFrom (v.setIfInBounds k b) (k + 1) bs

/-- The block `V[0]` to `V[x]`, ascending (R25). -/
def State.getBlock (s : State) (x : Nibble) : List Byte := s.v.toList.take (x.toNat + 1)

/-- `V[0], V[1], ...` written with the bytes of a list, ascending (R25). -/
def State.setBlock (s : State) (bs : List Byte) : State :=
  { s with v := Regs.writeFrom s.v 0 bs }

/-! ### Call stack (spec/10_state.md R30, R31) -/

/-- `push(w)`; a full stack raises `MemoryOutOfRange(StackFull)`. -/
def push (w : Word) (s : State) : Except FaultCause State :=
  if s.stack.length < Config.stackDepth then .ok { s with stack := w :: s.stack }
  else .error (.memoryOutOfRange .stackFull)

/-- `pop()`; an empty stack raises `StackUnderflow`. -/
def pop (s : State) : Except FaultCause (Word × State) :=
  match s.stack with
  | [] => .error (.stackUnderflow s.pc)
  | w :: rest => .ok (w, { s with stack := rest })

/-! ### Framebuffer port (spec/10_state.md R36, R48) -/

/-- `fb.get(x, y)`. -/
def Framebuffer.get (fb : Framebuffer) (x : Fin 64) (y : Fin 32) : Bool := fb[x][y]

/-- `fb.set(x, y, b)`. -/
def Framebuffer.set (fb : Framebuffer) (x : Fin 64) (y : Fin 32) (b : Bool) : Framebuffer :=
  Vector.set fb x.val (Vector.set fb[x] y.val b y.isLt) x.isLt

/-- `fb.clear()`: every pixel 0. -/
def Framebuffer.clear : Framebuffer := Vector.replicate 64 (Vector.replicate 32 false)

/-- `fb.dimensions()`. -/
def Framebuffer.dimensions : Nat × Nat := (Config.fbWidth, Config.fbHeight)

/-! ### Key port (spec/10_state.md R46, R47, R50) -/

/-- `keys.is_pressed(k)`. -/
def isPressed (keys : BitVec 16) (k : Nibble) : Bool := keys.getLsbD k.toNat

/-- The pressed keys, by rising index. -/
def pressedKeys (keys : BitVec 16) : List Nibble :=
  ((List.range Config.numKeys).map (BitVec.ofNat 4)).filter (isPressed keys)

/-- `keys.first_pressed()`: none when no key is pressed, the key itself when one is, and with
several the one `KEY_ORACLE` picks among them (R47, D16; DESIGN CHOICE, log 10). -/
def firstPressed (keys : BitVec 16) : Option Nibble :=
  match pressedKeys keys with
  | [] => none
  | [k] => some k
  | k :: ks => some ((k :: ks).getD (Config.keyOracle keys % (k :: ks).length) k)

/-- `press(k)` by the host. -/
def pressKey (keys : BitVec 16) (k : Nibble) : BitVec 16 := keys ||| (1#16 <<< k.toNat)

/-- `release(k)` by the host. -/
def releaseKey (keys : BitVec 16) (k : Nibble) : BitVec 16 := keys &&& ~~~(1#16 <<< k.toNat)

/-! ### Output ports (spec/10_state.md R45, R49) -/

/-- `tone`: combinational on `ST` (R49, R323). -/
def State.tone (s : State) : Bool := 0 < s.st.toNat

/-- `fault`: the latch `F` (R307). -/
def State.faultPort (s : State) : Latch := s.latch

/-! ### Random draws (spec/42_arithmetic.md R193) -/

/-- One fresh draw of `RNG` (DESIGN CHOICE, log 8). -/
def drawByte (s : State) : Byte × State := (Config.rng s.draws, { s with draws := s.draws + 1 })

/-! ### The pc-advance states (spec/40_cycle.md R143 to R147) -/

/-- The advance state an instruction selects (R143). -/
inductive Advance where
  | normal
  | skip
  | jump (target : Word)
  | await
  deriving DecidableEq, Repr

/-- The pc an advance state leads to (R144 to R147). -/
def nextPc (pc : Word) : Advance → Word
  | .normal => pc + 2#16
  | .skip => pc + 4#16
  | .jump t => t
  | .await => pc

/-- `advance(a)` at the end of a cycle (R28, R140). -/
def State.advance (s : State) (a : Advance) : State := { s with pc := nextPc s.pc a }

/-- `Skip` if the condition holds, else `Normal` (R143, R145). -/
def skipIf (b : Bool) : Advance := if b then .skip else .normal

/-! ### Fetch (spec/40_cycle.md R141) -/

/-- The big-endian word at `pc` and `pc + 1`, unbounded integers (R63, R64, R141). -/
def fetch (s : State) : Except FaultCause Word :=
  match memRead s.pc.toNat s with
  | .error c => .error c
  | .ok hi =>
    match memRead (s.pc.toNat + 1) s with
    | .error c => .error c
    | .ok lo => .ok (wordOfBytes hi lo)

/-- Fetch and decode (R140 to R142). -/
def fetchInstr (s : State) : Except FaultCause Instr :=
  match fetch s with
  | .error c => .error c
  | .ok w =>
    match decode w with
    | .error _ => .error (.unknownOpcode w s.pc)
    | .ok i => .ok i

/-- `s` with an instruction's word stored at `pc`, big-endian, where there is memory (DESIGN
CHOICE, log 7). -/
def placeWord (s : State) (w : Word) : State :=
  let put (m : Memory) (a : Nat) (b : Byte) : Memory :=
    if a < Config.memSize then m.write a b else m
  { s with mem := put (put s.mem s.pc.toNat (highByte w)) (s.pc.toNat + 1) (lowByte w) }

/-! ### Taking a fault (spec/60_exceptions.md R300, R306 to R308) -/

/-- The code the `fault` port reports (R300). -/
def FaultCause.code : FaultCause → Nat
  | .unknownOpcode _ _ => 1
  | .stackUnderflow _ => 2
  | .invalidFontIndex _ => 3
  | .memoryOutOfRange _ => 4
  | .invalidKeyIndex _ => 5

/-- A fault is raised: `F` is latched and every other component of the core's state is unspecified,
a free value (R306; DESIGN CHOICE, log 1). The inputs are the host's and stay. -/
def raise (c : FaultCause) (s : State) : State where
  mem := Memory.ofBytes (Config.afterFaultMem s.draws)
  v := Vector.ofFn (fun r => Config.afterFaultV s.draws r.val)
  i := Config.afterFaultI s.draws
  pc := Config.afterFaultPc s.draws
  stack := (List.range (Config.afterFaultDepth s.draws % (Config.stackDepth + 1))).map
    (Config.afterFaultEntry s.draws)
  dt := Config.afterFaultDt s.draws
  st := Config.afterFaultSt s.draws
  latch := .faulted c
  fb := Vector.ofFn (fun x => Vector.ofFn (fun y => Config.afterFaultPixel s.draws x.val y.val))
  keys := s.keys
  schedule := s.schedule
  draws := s.draws + 1

/-- The outcome of an execute stage from `s`: the state it computes, or the fault it raises. -/
def outcome (s : State) : Except FaultCause State → Host.Outcome State Fault Refusal
  | .ok t => .next t
  | .error c => .next (raise c s)

end Sys2Proof.Machine
end

