-- ==== Sys2Proof/Machine/Flags.lean ====
section
/-!
DEFINITION. The flag computations of spec/42_arithmetic.md R188 to R192 and the write of a result
and its flag (spec/40_cycle.md R148).
-/

namespace Sys2Proof.Machine

/-- A flag as the byte 0x00 or 0x01 (R181). -/
def flagByte (f : Bool) : Byte := if f then 0x01#8 else 0x00#8

/-- `a + b > 255` (R188). -/
def carryOf (a b : Byte) : Bool := 255 < a.toNat + b.toNat

/-- `a >= b`: the subtraction `a - b` does not borrow (R189, R191). -/
def notBorrowOf (a b : Byte) : Bool := b.toNat ≤ a.toNat

/-- Bit 0, before a shift right (R190). -/
def lowBitOf (a : Byte) : Bool := a.getLsbD 0

/-- Bit 7, before a shift left (R192). -/
def highBitOf (a : Byte) : Bool := a.getLsbD 7

/-- The final `VF` when the result and the flag both go to `VF`, as `VF_ALIAS_ORDER` says
(R148; DESIGN CHOICE, log 9). -/
def aliasedVf (r f : Byte) : Byte :=
  match Config.vfAliasOrder with
  | .flagWins => f
  | .resultWins => r

/-- Write `V[x] <- r` and `VF <- f` in the order `VF_ALIAS_ORDER` gives (R148). -/
def State.setResultAndFlag (s : State) (x : Nibble) (r : Byte) (f : Bool) : State :=
  if x = vf then s.setV vf (aliasedVf r (flagByte f))
  else (s.setV x r).setV vf (flagByte f)

end Sys2Proof.Machine
end

