-- ==== Sys2Proof/Machine/Arithmetic.lean ====
section
/-!
DEFINITION. The meanings of spec/42_arithmetic.md. Operands are read before any write (R148), and
every instruction selects the Normal advance.
-/

namespace Sys2Proof.Machine

/-- `V[x] <- r` with no flag, then Normal. -/
def writeResult (x : Nibble) (r : Byte) (s : State) : Host.Outcome State Fault Refusal :=
  outcome s (.ok ((s.setV x r).advance .normal))

/-- `V[x] <- r` and `VF <- f` as R148 orders them, then Normal. -/
def writeResultAndFlag (x : Nibble) (r : Byte) (f : Bool) (s : State) :
    Host.Outcome State Fault Refusal :=
  outcome s (.ok ((s.setResultAndFlag x r f).advance .normal))

/-- `LD Vx, nn` (R182). -/
def execSetConst (x : Nibble) (nn : Byte) (s : State) : Host.Outcome State Fault Refusal :=
  writeResult x nn s

/-- `ADD Vx, nn` (R183). -/
def execAddConst (x : Nibble) (nn : Byte) (s : State) : Host.Outcome State Fault Refusal :=
  writeResult x (s.getV x + nn) s

/-- `LD Vx, Vy` (R184). -/
def execSetReg (x y : Nibble) (s : State) : Host.Outcome State Fault Refusal :=
  writeResult x (s.getV y) s

/-- `OR Vx, Vy` (R185). -/
def execOr (x y : Nibble) (s : State) : Host.Outcome State Fault Refusal :=
  writeResult x (s.getV x ||| s.getV y) s

/-- `AND Vx, Vy` (R186). -/
def execAnd (x y : Nibble) (s : State) : Host.Outcome State Fault Refusal :=
  writeResult x (s.getV x &&& s.getV y) s

/-- `XOR Vx, Vy` (R187). -/
def execXor (x y : Nibble) (s : State) : Host.Outcome State Fault Refusal :=
  writeResult x (s.getV x ^^^ s.getV y) s

/-- `ADD Vx, Vy` (R188). -/
def execAddReg (x y : Nibble) (s : State) : Host.Outcome State Fault Refusal :=
  writeResultAndFlag x (s.getV x + s.getV y) (carryOf (s.getV x) (s.getV y)) s

/-- `SUB Vx, Vy` (R189). -/
def execSub (x y : Nibble) (s : State) : Host.Outcome State Fault Refusal :=
  writeResultAndFlag x (s.getV x - s.getV y) (notBorrowOf (s.getV x) (s.getV y)) s

/-- `SHR Vx` (R190). -/
def execShiftRight (x : Nibble) (s : State) : Host.Outcome State Fault Refusal :=
  writeResultAndFlag x (s.getV x >>> 1) (lowBitOf (s.getV x)) s

/-- `SUBN Vx, Vy` (R191). -/
def execSubReverse (x y : Nibble) (s : State) : Host.Outcome State Fault Refusal :=
  writeResultAndFlag x (s.getV y - s.getV x) (notBorrowOf (s.getV y) (s.getV x)) s

/-- `SHL Vx` (R192). -/
def execShiftLeft (x : Nibble) (s : State) : Host.Outcome State Fault Refusal :=
  writeResultAndFlag x (s.getV x <<< 1) (highBitOf (s.getV x)) s

/-- `RND Vx, nn`: one fresh draw, masked (R193; DESIGN CHOICE, log 8). -/
def execRandom (x : Nibble) (nn : Byte) (s : State) : Host.Outcome State Fault Refusal :=
  let (r, t) := drawByte s
  writeResult x (r &&& nn) t

end Sys2Proof.Machine
end

