-- ==== Sys2Proof/Machine/Operands.lean ====
section
/-!
DEFINITION. The operand forms: immediates (spec/30_encoding.md R92), the one data addressing mode
(spec/43_memory_block.md R210), and the registers whose value selects a key or a glyph.
-/

namespace Sys2Proof.Machine

/-- `zext_16(nnn)` (R92). -/
def addressOperand (nnn : Addr12) : Word := nnn.setWidth 16

/-- `zext_16(nnn) + zext_16(V[0])`, at most 0x10FE, so not wrapped (R167). -/
def offsetTarget (nnn : Addr12) (s : State) : Word :=
  addressOperand nnn + (s.getV 0x0#4).setWidth 16

/-- The effective address of the block that `I` points to, an unbounded integer (R63, R210). -/
def blockAddress (s : State) : Nat := s.i.toNat

/-- The key a register's value names; above 15 it is `InvalidKeyIndex` (R280, R305). -/
def keyOperand (k : Byte) : Except FaultCause Nibble :=
  if k.toNat ≤ 15 then .ok (k.setWidth 4) else .error (.invalidKeyIndex k)

/-- The address of the glyph a register's value names; above 15 it is `InvalidFontIndex`
(R216, R303). -/
def glyphOperand (v : Byte) : Except FaultCause Word :=
  if v.toNat ≤ 15 then .ok (BitVec.ofNat 16 (Config.fontGlyphBytes * v.toNat))
  else .error (.invalidFontIndex v)

/-- The hundreds, tens and ones of a value (R213). -/
def bcdDigits (v : Byte) : List Byte :=
  [BitVec.ofNat 8 (v.toNat / 100), BitVec.ofNat 8 (v.toNat / 10 % 10),
    BitVec.ofNat 8 (v.toNat % 10)]

end Sys2Proof.Machine
end

