-- ==== Sys2Proof/Machine/ControlTransfer.lean ====
section
/-!
DEFINITION. The meanings of spec/41_control_transfer.md.
-/

namespace Sys2Proof.Machine

/-- The shape of a conditional skip: no effect but the advance state (R143, R145). -/
def skipWhen (b : Bool) (s : State) : Host.Outcome State Fault Refusal :=
  outcome s (.ok (s.advance (skipIf b)))

/-- `JP nnn` (R160). -/
def execJump (nnn : Addr12) (s : State) : Host.Outcome State Fault Refusal :=
  outcome s (.ok (s.advance (.jump (addressOperand nnn))))

/-- `CALL nnn` (R161). -/
def execCall (nnn : Addr12) (s : State) : Host.Outcome State Fault Refusal :=
  outcome s
    (match push (s.pc + 2#16) s with
    | .error c => .error c
    | .ok t => .ok (t.advance (.jump (addressOperand nnn))))

/-- `RET` (R162). -/
def execRet (s : State) : Host.Outcome State Fault Refusal :=
  outcome s
    (match pop s with
    | .error c => .error c
    | .ok (w, t) => .ok (t.advance (.jump w)))

/-- `SE Vx, nn` (R163). -/
def execSkipEqConst (x : Nibble) (nn : Byte) (s : State) : Host.Outcome State Fault Refusal :=
  skipWhen (s.getV x == nn) s

/-- `SNE Vx, nn` (R164). -/
def execSkipNeConst (x : Nibble) (nn : Byte) (s : State) : Host.Outcome State Fault Refusal :=
  skipWhen (s.getV x != nn) s

/-- `SE Vx, Vy` (R165). -/
def execSkipEqReg (x y : Nibble) (s : State) : Host.Outcome State Fault Refusal :=
  skipWhen (s.getV x == s.getV y) s

/-- `SNE Vx, Vy` (R166). -/
def execSkipNeReg (x y : Nibble) (s : State) : Host.Outcome State Fault Refusal :=
  skipWhen (s.getV x != s.getV y) s

/-- `JP V0, nnn` (R167). -/
def execJumpOffset (nnn : Addr12) (s : State) : Host.Outcome State Fault Refusal :=
  outcome s (.ok (s.advance (.jump (offsetTarget nnn s))))

end Sys2Proof.Machine
end

