-- ==== Sys2Proof/Machine/Drawing.lean ====
section
/-!
DEFINITION. The meanings of spec/44_drawing.md.
-/

namespace Sys2Proof.Machine

/-- The sprite bit of column `c`: bit `7 - c`, so bit 7 is the leftmost column (R241). -/
def spriteBit (row : Byte) (c : Nat) : Bool := row.getLsbD (7 - c)

/-- A framebuffer image and the collision seen so far (R242). -/
abbrev Canvas := Framebuffer × Bool

/-- Column `c` of a row at framebuffer row `y`: a set sprite bit flips its pixel, and collides if
the pixel was set (R242). -/
def drawColumn (row : Byte) (x0 : Nat) (y : Fin 32) (k : Canvas) (c : Nat) : Canvas :=
  if spriteBit row c then
    (k.1.set (Fin.ofNat 64 (x0 + c)) y (!k.1.get (Fin.ofNat 64 (x0 + c)) y),
      k.2 || k.1.get (Fin.ofNat 64 (x0 + c)) y)
  else k

/-- The eight columns of a row, left to right (R241, R242). -/
def drawRow (row : Byte) (x0 : Nat) (y : Fin 32) (k : Canvas) : Canvas :=
  (List.range 8).foldl (drawColumn row x0 y) k

/-- The rows of a sprite, top to bottom, the first at row `y0`, wrapping (R241, R242). -/
def drawRows (x0 : Nat) : Nat → List Byte → Canvas → Canvas
  | _, [], k => k
  | y0, row :: rows, k => drawRows x0 (y0 + 1) rows (drawRow row x0 (Fin.ofNat 32 y0) k)

/-- `CLS` (R240). -/
def execClearScreen (s : State) : Host.Outcome State Fault Refusal :=
  outcome s (.ok ({ s with fb := Framebuffer.clear }.advance .normal))

/-- `DRW Vx, Vy, n`: `VF` is written last, on every execution (R242). All rows are read before any
pixel is written (DEDUCED, log 17). -/
def execDraw (x y n : Nibble) (s : State) : Host.Outcome State Fault Refusal :=
  outcome s
    (match loadBytes s (blockAddress s) n.toNat with
    | .error c => .error c
    | .ok rows =>
      let k := drawRows (s.getV x).toNat (s.getV y).toNat rows (s.fb, false)
      .ok (({ s with fb := k.1 }.setV vf (flagByte k.2)).advance .normal))

end Sys2Proof.Machine
end

