-- ==== Sys2Proof/Machine/InputSystem.lean ====
section
/-!
DEFINITION. The meanings of spec/46_input_system.md.
-/

namespace Sys2Proof.Machine

/-- The shape of the key skips: the register's value names the key, and the skip is taken when the
key's state is `wanted` (R280, R281). -/
def skipOnKey (x : Nibble) (wanted : Bool) (s : State) : Host.Outcome State Fault Refusal :=
  outcome s
    (match keyOperand (s.getV x) with
    | .error c => .error c
    | .ok k => .ok (s.advance (skipIf (isPressed s.keys k == wanted))))

/-- `SKP Vx` (R280). -/
def execSkipKeyPressed (x : Nibble) (s : State) : Host.Outcome State Fault Refusal :=
  skipOnKey x true s

/-- `SKNP Vx` (R281). -/
def execSkipKeyNotPressed (x : Nibble) (s : State) : Host.Outcome State Fault Refusal :=
  skipOnKey x false s

/-- `LD Vx, K`: with no key pressed the pc does not advance (R282). -/
def execAwaitInput (x : Nibble) (s : State) : Host.Outcome State Fault Refusal :=
  outcome s
    (match firstPressed s.keys with
    | none => .ok (s.advance .await)
    | some k => .ok ((s.setV x (k.setWidth 8)).advance .normal))

/-- `SYS nnn`: `nnn` is carried and not used (R283). -/
def execSys (_nnn : Addr12) (s : State) : Host.Outcome State Fault Refusal :=
  outcome s (.ok (s.advance .normal))

end Sys2Proof.Machine
end

