-- ==== Sys2Proof/Machine/MemoryBlock.lean ====
section
/-!
DEFINITION. The meanings of spec/43_memory_block.md. Every instruction selects the Normal advance
and none changes `I` as a side effect of an access (R210).
-/

namespace Sys2Proof.Machine

/-- The shape of a store through `I`: bytes written at ascending addresses, then Normal. -/
def storeThroughI (bs : List Byte) (s : State) : Host.Outcome State Fault Refusal :=
  outcome s
    (match storeBytes (blockAddress s) bs s with
    | .error c => .error c
    | .ok t => .ok (t.advance .normal))

/-- `LD I, nnn` (R211). -/
def execSetI (nnn : Addr12) (s : State) : Host.Outcome State Fault Refusal :=
  outcome s (.ok ({ s with i := addressOperand nnn }.advance .normal))

/-- `ADD I, Vx` (R212). -/
def execAddI (x : Nibble) (s : State) : Host.Outcome State Fault Refusal :=
  outcome s (.ok ({ s with i := s.i + (s.getV x).setWidth 16 }.advance .normal))

/-- `LD B, Vx` (R213). -/
def execBcd (x : Nibble) (s : State) : Host.Outcome State Fault Refusal :=
  storeThroughI (bcdDigits (s.getV x)) s

/-- `LD [I], Vx` (R214). -/
def execDump (x : Nibble) (s : State) : Host.Outcome State Fault Refusal :=
  storeThroughI (s.getBlock x) s

/-- `LD Vx, [I]` (R215). -/
def execLoad (x : Nibble) (s : State) : Host.Outcome State Fault Refusal :=
  outcome s
    (match loadBytes s (blockAddress s) (x.toNat + 1) with
    | .error c => .error c
    | .ok bs => .ok ((s.setBlock bs).advance .normal))

/-- `LD F, Vx` (R216). -/
def execFontChar (x : Nibble) (s : State) : Host.Outcome State Fault Refusal :=
  outcome s
    (match glyphOperand (s.getV x) with
    | .error c => .error c
    | .ok a => .ok ({ s with i := a }.advance .normal))

end Sys2Proof.Machine
end

