-- ==== Sys2Proof/Machine/TimerData.lean ====
section
/-!
DEFINITION. The meanings of spec/45_timers.md. All three select the Normal advance.
-/

namespace Sys2Proof.Machine

/-- `LD Vx, DT` (R260). -/
def execGetDelay (x : Nibble) (s : State) : Host.Outcome State Fault Refusal :=
  outcome s (.ok ((s.setV x s.dt).advance .normal))

/-- `LD DT, Vx` (R261). -/
def execSetDelay (x : Nibble) (s : State) : Host.Outcome State Fault Refusal :=
  outcome s (.ok ({ s with dt := s.getV x }.advance .normal))

/-- `LD ST, Vx` (R262). -/
def execSetSound (x : Nibble) (s : State) : Host.Outcome State Fault Refusal :=
  outcome s (.ok ({ s with st := s.getV x }.advance .normal))

end Sys2Proof.Machine
end

