-- ==== Sys2Proof/Machine/Cycle.lean ====
section
/-!
DEFINITION. The three steps of the CORE (spec/00_scope.md R8): the cycle step (spec/40_cycle.md
R140), the tick step (spec/60_exceptions.md R320) and the load step (spec/70_reset_and_hazards.md
R340); and the host action that triggers the next one (R354, R358).
-/

namespace Sys2Proof.Machine

/-- `cycle()`: fetch, decode, execute, advance (R140); refused while `F = Faulted` (R151; DESIGN
CHOICE, log 2). -/
def cycleStep (s : State) : Host.Outcome State Fault Refusal :=
  match s.latch with
  | .faulted c => .fault (.coreStopped c)
  | .running =>
    match fetchInstr s with
    | .error c => .next (raise c s)
    | .ok i => exec i s

/-- A timer after one tick: one less, saturating at zero (R320, R321). -/
def tickTimer (t : Byte) : Byte := if 0 < t.toNat then t - 1#8 else t

/-- `tick()` (R320); refused while `F = Faulted` (R308; DESIGN CHOICE, log 2). -/
def tickStep (s : State) : Host.Outcome State Fault Refusal :=
  match s.latch with
  | .faulted c => .fault (.coreStopped c)
  | .running => .next { s with dt := tickTimer s.dt, st := tickTimer s.st }

/-- The core right after `load(image)` (R41, R340); the inputs are the host's and stay (DESIGN
CHOICE, log 6). -/
def loadedState (image : List Byte) (s : State) : State where
  mem := Memory.writeAll [] Config.programBase image
  v := Vector.replicate 16 0x00#8
  i := 0x0000#16
  pc := 0x0200#16
  stack := []
  dt := 0x00#8
  st := 0x00#8
  latch := .running
  fb := Framebuffer.clear
  keys := s.keys
  schedule := s.schedule
  draws := s.draws

/-- `load(image)` (R340); an image that does not fit is refused (R341; DESIGN CHOICE, log 22). -/
def loadStep (image : List Byte) (s : State) : Host.Outcome State Fault Refusal :=
  if image.length ≤ Config.maxProgramLen then .next (loadedState image s)
  else .refused (.imageTooLong image.length)

/-- One host action (R358; DESIGN CHOICE, log 3, log 5). -/
def perform (a : HostAction) (s : State) : Host.Outcome State Fault Refusal :=
  match a with
  | .cycle => cycleStep s
  | .tick => tickStep s
  | .press k => .next { s with keys := pressKey s.keys k }
  | .release k => .next { s with keys := releaseKey s.keys k }
  | .load image => loadStep image s

/-- The next host action: the head of the schedule, or `cycle` when nothing is scheduled
(R354; DESIGN CHOICE, log 3). -/
def nextAction (s : State) : HostAction := s.schedule.headD .cycle

/-- Perform the next host action, taken off the schedule (R71, R354). -/
def performNext (s : State) : Host.Outcome State Fault Refusal :=
  perform (nextAction s) { s with schedule := s.schedule.tail }

/-- `s` about to perform a cycle that fetches the word `w` (DESIGN CHOICE, log 7). -/
def readyToRun (s : State) (w : Word) : State :=
  { placeWord s w with latch := .running, schedule := .cycle :: s.schedule }

end Sys2Proof.Machine
end

