-- ==== Sys2Proof/Machine/Step.lean ====
section
/-!
DEFINITION. One step of the machine: the next host action (spec/70_reset_and_hazards.md R354).
-/

namespace Sys2Proof.Machine

/-- One step: what the host does next to the core, performed (R354, R358; DESIGN CHOICE, log 3). -/
def step (s : State) : Host.Outcome State Fault Refusal := performNext s

/-- `s` with an opcode-table word stored where the next cycle fetches, that cycle the host's next
action and the core running (DESIGN CHOICE, log 7). -/
def State.withFetchWord (s : State) (nbits w : Nat) : State := readyToRun s (tableWord nbits w)

end Sys2Proof.Machine
end

