-- ==== Sys2Proof/Safety.lean ====
section
/-!
DEFINITION. The terms claims are stated in: a running core, a safe step, the invariant of the
state, and what an instruction leaves unchanged.
-/

namespace Sys2Proof.Machine

/-- The core takes `cycle` and `tick` strobes: `F = Running` (spec/10_state.md R35). -/
def State.Running (s : State) : Prop := s.latch = .running

/-- The next host action succeeds and raises no fault (spec/60_exceptions.md R306). -/
def SafeStep (s : State) : Prop := ∃ t, step s = .next t ∧ t.Running

/-- What every step keeps: memory in canonical form, at most 16 entries on the call stack (R31), and
while the core runs a pc of at most 0x10FE and return addresses of at most 4096 (R149). -/
def State.Inv (s : State) : Prop :=
  s.mem.wf ∧ s.stack.length ≤ Config.stackDepth ∧
    (s.Running → s.pc.toNat ≤ 0x10FE ∧ ∀ w ∈ s.stack, w.toNat ≤ Config.memSize)

/-- Every general register outside `P` reads as before. -/
def SameRegsBut (P : Nibble → Prop) (s t : State) : Prop := ∀ r, ¬ P r → t.getV r = s.getV r

/-- Every byte of memory reads as before. -/
def SameMem (s t : State) : Prop := ∀ a, t.mem.read a = s.mem.read a

/-- Every byte of memory outside the `n` bytes from `base` reads as before. -/
def SameMemOutside (base n : Nat) (s t : State) : Prop :=
  ∀ a, (a < base ∨ base + n ≤ a) → t.mem.read a = s.mem.read a

/-- The timers, the fault latch and the host's inputs are as before. -/
def SameTimersAndPorts (s t : State) : Prop :=
  t.dt = s.dt ∧ t.st = s.st ∧ t.latch = s.latch ∧ t.keys = s.keys ∧ t.schedule = s.schedule

/-- Nothing is changed but `pc` and the general registers in `P`. -/
def OnlyRegsAndPc (P : Nibble → Prop) (s t : State) : Prop :=
  SameRegsBut P s t ∧ SameMem s t ∧ t.i = s.i ∧ t.stack = s.stack ∧ t.fb = s.fb ∧
    SameTimersAndPorts s t ∧ t.draws = s.draws

/-- Nothing is changed but `pc`. -/
def OnlyPc (s t : State) : Prop := OnlyRegsAndPc (fun _ => False) s t

/-- A result `r` in `V[x]` and a flag `f` in `VF`, in the order `VF_ALIAS_ORDER` gives when both are
`VF` (R148), the Normal advance, and nothing else changed. -/
def WritesResultAndFlag (x : Nibble) (r f : Nat) (s t : State) : Prop :=
  (x ≠ vf → (t.getV x).toNat = r ∧ (t.getV vf).toNat = f) ∧
    (x = vf → Config.vfAliasOrder = .flagWins → (t.getV vf).toNat = f) ∧
    (x = vf → Config.vfAliasOrder = .resultWins → (t.getV vf).toNat = r) ∧
    t.pc = s.pc + 2#16 ∧ OnlyRegsAndPc (fun q => q = x ∨ q = vf) s t

/-- The registers an instruction may write, its destination and the flag (R24, R25). -/
def writesReg : Instr → Nibble → Prop
  | .sys _ => fun _ => False
  | .clearScreen => fun _ => False
  | .ret => fun _ => False
  | .jump _ => fun _ => False
  | .call _ => fun _ => False
  | .skipEqConst _ _ => fun _ => False
  | .skipNeConst _ _ => fun _ => False
  | .skipEqReg _ _ => fun _ => False
  | .setConst x _ => fun q => q = x
  | .addConst x _ => fun q => q = x
  | .setReg x _ => fun q => q = x
  | .orReg x _ => fun q => q = x
  | .andReg x _ => fun q => q = x
  | .xorReg x _ => fun q => q = x
  | .addReg x _ => fun q => q = x ∨ q = vf
  | .sub x _ => fun q => q = x ∨ q = vf
  | .shiftRight x => fun q => q = x ∨ q = vf
  | .subReverse x _ => fun q => q = x ∨ q = vf
  | .shiftLeft x => fun q => q = x ∨ q = vf
  | .skipNeReg _ _ => fun _ => False
  | .setI _ => fun _ => False
  | .jumpOffset _ => fun _ => False
  | .random x _ => fun q => q = x
  | .draw _ _ _ => fun q => q = vf
  | .skipKeyPressed _ => fun _ => False
  | .skipKeyNotPressed _ => fun _ => False
  | .getDelay x => fun q => q = x
  | .awaitInput x => fun q => q = x
  | .setDelay _ => fun _ => False
  | .setSound _ => fun _ => False
  | .addI _ => fun _ => False
  | .fontChar _ => fun _ => False
  | .bcd _ => fun _ => False
  | .dump _ => fun _ => False
  | .load x => fun q => q.toNat ≤ x.toNat

/-- A set bit of the sprite of `n` rows at `I`, drawn from `(V[x], V[y])`, lands on the pixel
`(q, p)`: written from the coordinates of R241 alone, not from the drawing loop. -/
def SpriteCovers (s : State) (x y n : Nibble) (q : Fin 64) (p : Fin 32) : Prop :=
  ∃ r c : Nat, r < n.toNat ∧ c < 8 ∧
    (s.mem.read (s.i.toNat + r)).getLsbD (7 - c) = true ∧
    q.val = ((s.getV x).toNat + c) % 64 ∧ p.val = ((s.getV y).toNat + r) % 32

end Sys2Proof.Machine
end

