-- ==== Sys2Proof/Certificates/Slice0/Obligations.lean ====
section
/-!
DEFINITION. The statements about the CORE, each from the rules of spec/ its docstring names.
"Choice" in a docstring marks a clause that rests on a decision the spec marks as its own (D<n> of
92_eei_decisions.md) or on an entry of the assumption log.
-/

open Sys2Proof Sys2Proof.Machine

/-! ### Decoding -/

/-- 30_encoding.md section 2: decoding the word of a well-formed instruction gives it back, with
every operand at every value. -/
def Obligations.DecodeOfEncodeIsIdentity : Prop :=
  ∀ i : Instr, i.wellFormed = true → decode (encode i) = .ok i

/-- 30_encoding.md section 2: what decodes is well-formed, and its encoding is the word again, but
for the Y field of `8XY6` and `8XYE`, which is ignored (choice D8) and encoded as 0. -/
def Obligations.EncodeOfDecodeIsTheWord : Prop :=
  ∀ (w : Word) (i : Instr), decode w = .ok i →
    i.wellFormed = true ∧
      encode i = match i with
        | .shiftRight _ => w &&& 0xFF0F#16
        | .shiftLeft _ => w &&& 0xFF0F#16
        | _ => w

/-- 30_encoding.md sections 2 and 3: the decoder answers an instruction or `unknownOpcode` of the
word, and the latter for exactly the illegal words (the table and its strictness: choice D22). -/
def Obligations.IllegalWordsAreExactlyTheListed : Prop :=
  ∀ w : Word,
    ((∃ i, decode w = .ok i) ∨ decode w = .error (.unknownOpcode w)) ∧
    (decode w = .error (.unknownOpcode w) ↔
      (fieldC w = 0x5#4 ∧ fieldN w ≠ 0x0#4) ∨
      (fieldC w = 0x9#4 ∧ fieldN w ≠ 0x0#4) ∨
      (fieldC w = 0x8#4 ∧ 8 ≤ (fieldN w).toNat ∧ fieldN w ≠ 0xE#4) ∨
      (fieldC w = 0xE#4 ∧ fieldNN w ≠ 0x9E#8 ∧ fieldNN w ≠ 0xA1#8) ∨
      (fieldC w = 0xF#4 ∧
        fieldNN w ∉ [0x07#8, 0x0A#8, 0x15#8, 0x18#8, 0x1E#8, 0x29#8, 0x33#8, 0x55#8, 0x65#8]))

/-- R108: the source's three decoding examples. -/
def Obligations.SourceDecodingExamples : Prop :=
  decode 0x00E0#16 = .ok .clearScreen ∧
    decode 0xA2F0#16 = .ok (.setI 0x2F0#12) ∧
    decode 0x6A07#16 = .ok (.setConst 0xA#4 0x07#8)

/-- 30_encoding.md section 2: a word written out from the spec's pattern in each family decodes to
the instruction it stands for. -/
def Obligations.OneWordOfEachFamilyDecodes : Prop :=
  decode 0b0011101001000010#16 = .ok (.skipEqConst 0xA#4 0x42#8) ∧
    decode 0b1000101010110101#16 = .ok (.sub 0xA#4 0xB#4) ∧
    decode 0b1111101001010101#16 = .ok (.dump 0xA#4) ∧
    decode 0b1101101010110101#16 = .ok (.draw 0xA#4 0xB#4 0x5#4) ∧
    decode 0b1111101000010101#16 = .ok (.setDelay 0xA#4) ∧
    decode 0b1110101010100001#16 = .ok (.skipKeyNotPressed 0xA#4)

/-! ### The cycle -/

/-- 40_cycle.md section 1: on a running core whose next host action is a cycle, when the two bytes
at `pc` decode to `i`, the step is the execute stage of `i`, with that action taken off the
schedule (the schedule: choice, log 3). -/
def Obligations.StepRunsTheDecodedInstruction : Prop :=
  ∀ (s : State) (i : Instr), s.Running → nextAction s = .cycle → s.pc.toNat ≤ 4094 →
    decode (wordOfBytes (s.mem.read s.pc.toNat) (s.mem.read (s.pc.toNat + 1))) = .ok i →
    step s = exec i { s with schedule := s.schedule.tail }

/-- 40_cycle.md section 1: a fetch with pc above 4094 faults with the first invalid address (the
bounds: choice D4, D5; the faulted next state: log 1). -/
def Obligations.FetchOutsideMemoryFaults : Prop :=
  ∀ s : State, s.Running → nextAction s = .cycle → 4094 < s.pc.toNat →
    ∃ t, step s = .next t ∧
      t.latch = .faulted (.memoryOutOfRange
        (.addr (if 4096 ≤ s.pc.toNat then s.pc.toNat else 4096)))

/-- 40_cycle.md section 1 and 60_exceptions.md section 1: a word that is no instruction faults with
the word and its address (the faulted next state: log 1). -/
def Obligations.UnknownOpcodeFaultsWithWordAndPc : Prop :=
  ∀ (s : State) (w : Word), s.Running → nextAction s = .cycle → s.pc.toNat ≤ 4094 →
    w = wordOfBytes (s.mem.read s.pc.toNat) (s.mem.read (s.pc.toNat + 1)) →
    decode w = .error (.unknownOpcode w) →
    ∃ t, step s = .next t ∧ t.latch = .faulted (.unknownOpcode w s.pc)

/-- 40_cycle.md section 2: every instruction that raises no fault selects one of the four advance
states, by that section's table (the unwrapped target of JP V0: choice D4; a pc past 0xFFFB, which
no run reaches: log 16). -/
def Obligations.EveryInstructionSelectsItsPcAdvance : Prop :=
  ∀ (i : Instr) (s t : State), s.Running → exec i s = .next t → t.Running →
    match i with
    | .jump nnn => t.pc.toNat = nnn.toNat
    | .call nnn => t.pc.toNat = nnn.toNat
    | .jumpOffset nnn => t.pc.toNat = nnn.toNat + (s.getV 0x0#4).toNat
    | .ret => s.stack.head? = some t.pc
    | .skipEqConst x nn => t.pc = if s.getV x = nn then s.pc + 4#16 else s.pc + 2#16
    | .skipNeConst x nn => t.pc = if s.getV x = nn then s.pc + 2#16 else s.pc + 4#16
    | .skipEqReg x y => t.pc = if s.getV x = s.getV y then s.pc + 4#16 else s.pc + 2#16
    | .skipNeReg x y => t.pc = if s.getV x = s.getV y then s.pc + 2#16 else s.pc + 4#16
    | .skipKeyPressed x =>
      t.pc = if s.keys.getLsbD (s.getV x).toNat then s.pc + 4#16 else s.pc + 2#16
    | .skipKeyNotPressed x =>
      t.pc = if s.keys.getLsbD (s.getV x).toNat then s.pc + 2#16 else s.pc + 4#16
    | .awaitInput _ => t.pc = if s.keys = 0#16 then s.pc else s.pc + 2#16
    | _ => t.pc = s.pc + 2#16

/-- 10_state.md R24, R26, R30, R32, R33, R36 and 20_memory.md section 1: what an instruction that
raises no fault may change, for all 35. Memory by FX33 and FX55 only, and there only the 3 and the
x + 1 bytes from the block's address; the stack by CALL and RET, the framebuffer by CLS and DRW, I
by ANNN, FX1E and FX29, DT by FX15, ST by FX18, each register only by an instruction that writes it
(VF elsewhere left alone: choice D10), the inputs by none. -/
def Obligations.EveryInstructionKeepsWhatItDoesNotWrite : Prop :=
  ∀ (i : Instr) (s t : State), s.Running → exec i s = .next t → t.Running →
    SameRegsBut (writesReg i) s t ∧
    (match i with
      | .bcd _ => SameMemOutside (blockAddress s) 3 s t
      | .dump x => SameMemOutside (blockAddress s) (x.toNat + 1) s t
      | _ => t.mem = s.mem) ∧
    (t.stack ≠ s.stack → i = .ret ∨ ∃ nnn, i = .call nnn) ∧
    (t.fb ≠ s.fb → i = .clearScreen ∨ ∃ x y n, i = .draw x y n) ∧
    (t.i ≠ s.i → (∃ nnn, i = .setI nnn) ∨ (∃ x, i = .addI x) ∨ ∃ x, i = .fontChar x) ∧
    (t.dt ≠ s.dt → ∃ x, i = .setDelay x) ∧
    (t.st ≠ s.st → ∃ x, i = .setSound x) ∧
    (t.draws ≠ s.draws → ∃ x nn, i = .random x nn) ∧
    t.keys = s.keys ∧ t.schedule = s.schedule

/-- 60_exceptions.md sections 1 and 2 (the faulted next state: log 1; StackFull: choice D3; the
bounds: D4; key and font bounds: D14, D15; first invalid address: D35): which fault each instruction raises,
and exactly when. -/
def Obligations.EveryInstructionRaisesItsFaultsOnly : Prop :=
  ∀ (i : Instr) (s t : State) (c : FaultCause), s.Running → exec i s = .next t →
    (t.latch = .faulted c ↔
      match i with
      | .ret => s.stack = [] ∧ c = .stackUnderflow s.pc
      | .call _ => 16 ≤ s.stack.length ∧ c = .memoryOutOfRange .stackFull
      | .fontChar x => 15 < (s.getV x).toNat ∧ c = .invalidFontIndex (s.getV x)
      | .skipKeyPressed x => 15 < (s.getV x).toNat ∧ c = .invalidKeyIndex (s.getV x)
      | .skipKeyNotPressed x => 15 < (s.getV x).toNat ∧ c = .invalidKeyIndex (s.getV x)
      | .bcd _ => 4096 < s.i.toNat + 3 ∧ c = .memoryOutOfRange (.addr (max s.i.toNat 4096))
      | .dump x =>
        4096 < s.i.toNat + x.toNat + 1 ∧ c = .memoryOutOfRange (.addr (max s.i.toNat 4096))
      | .load x =>
        4096 < s.i.toNat + x.toNat + 1 ∧ c = .memoryOutOfRange (.addr (max s.i.toNat 4096))
      | .draw _ _ n =>
        0 < n.toNat ∧ 4096 < s.i.toNat + n.toNat ∧
          c = .memoryOutOfRange (.addr (max s.i.toNat 4096))
      | _ => False)

/-- 60_exceptions.md sections 1 and 2 (log 1): from every state every instruction answers a next
state, running or faulted; no instruction stops the machine by itself. -/
def Obligations.EveryInstructionAnswersANextState : Prop :=
  ∀ (i : Instr) (s : State), ∃ t, exec i s = .next t

/-! ### Invariants -/

/-- 10_state.md section 5 (choice D3), 40_cycle.md section 3 and the model's canonical memory (log
26): every step keeps the invariant, from every state that meets it. -/
def Obligations.StepKeepsInvariant : Prop :=
  ∀ s t : State, s.Inv → step s = .next t → t.Inv

/-- 10_state.md section 10 and 20_memory.md section 5 (zero values: choice D1, log 12; framebuffer:
choice D2, log 13; font bytes: choice D26, log 14; the latch: choice D20; the empty image: log 6):
the reset state meets the invariant; every component has the value R41 gives it; memory is the font
of R69, byte `r` of glyph `d` at `5 * d + r`, and zero after it. -/
def Obligations.ResetMeetsInvariant : Prop :=
  State.reset.Inv ∧ State.reset.Running ∧ State.reset.pc = 0x200#16 ∧
    (∀ r, State.reset.getV r = 0#8) ∧ State.reset.i = 0#16 ∧ State.reset.stack = [] ∧
    State.reset.dt = 0#8 ∧ State.reset.st = 0#8 ∧ State.reset.tone = false ∧
    (∀ x y, State.reset.fb.get x y = false) ∧
    (∀ d r : Nat, d < 16 → r < 5 →
      State.reset.mem.read (5 * d + r) =
        (([[0xF0#8, 0x90#8, 0x90#8, 0x90#8, 0xF0#8], [0x20#8, 0x60#8, 0x20#8, 0x20#8, 0x70#8],
          [0xF0#8, 0x10#8, 0xF0#8, 0x80#8, 0xF0#8], [0xF0#8, 0x10#8, 0xF0#8, 0x10#8, 0xF0#8],
          [0x90#8, 0x90#8, 0xF0#8, 0x10#8, 0x10#8], [0xF0#8, 0x80#8, 0xF0#8, 0x10#8, 0xF0#8],
          [0xF0#8, 0x80#8, 0xF0#8, 0x90#8, 0xF0#8], [0xF0#8, 0x10#8, 0x20#8, 0x40#8, 0x40#8],
          [0xF0#8, 0x90#8, 0xF0#8, 0x90#8, 0xF0#8], [0xF0#8, 0x90#8, 0xF0#8, 0x10#8, 0xF0#8],
          [0xF0#8, 0x90#8, 0xF0#8, 0x90#8, 0x90#8], [0xE0#8, 0x90#8, 0xE0#8, 0x90#8, 0xE0#8],
          [0xF0#8, 0x80#8, 0x80#8, 0x80#8, 0xF0#8], [0xE0#8, 0x90#8, 0x90#8, 0x90#8, 0xE0#8],
          [0xF0#8, 0x80#8, 0xF0#8, 0x80#8, 0xF0#8], [0xF0#8, 0x80#8, 0xF0#8, 0x80#8, 0x80#8]] :
            List (List Byte)).getD d []).getD r 0#8) ∧
    (∀ a, 80 ≤ a → State.reset.mem.read a = 0#8)

/-- The model's memory (log 26): two memories in canonical form that read the same at every address
are the same data. -/
def Obligations.CanonicalMemoryIsDeterminedByItsBytes : Prop :=
  ∀ m m' : Memory, m.wf → m'.wf → (∀ a, m.read a = m'.read a) → m = m'

/-! ### Control transfer -/

/-- R160: JP. -/
def Obligations.JumpSetsPc : Prop :=
  ∀ (nnn : Addr12) (s : State), ∃ t, exec (.jump nnn) s = .next t ∧
    t.pc.toNat = nnn.toNat ∧ OnlyPc s t

/-- 41_control_transfer.md, CALL (the limit of 16: choice D3): below 16 entries the return address
`pc + 2` is pushed and pc is the target; at 16 the call faults with StackFull. -/
def Obligations.CallPushesReturnAddress : Prop :=
  ∀ (nnn : Addr12) (s : State),
    (s.stack.length < 16 → ∃ t, exec (.call nnn) s = .next t ∧
      t.stack = (s.pc + 2#16) :: s.stack ∧ t.pc.toNat = nnn.toNat ∧
      SameRegsBut (fun _ => False) s t ∧ SameMem s t ∧ t.i = s.i ∧ t.fb = s.fb ∧
      SameTimersAndPorts s t ∧ t.draws = s.draws) ∧
    (16 ≤ s.stack.length → ∃ t, exec (.call nnn) s = .next t ∧
      t.latch = .faulted (.memoryOutOfRange .stackFull))

/-- 41_control_transfer.md, RET: it pops the stack into pc; with an empty stack it raises
StackUnderflow (the faulted next state: log 1). -/
def Obligations.RetPopsIntoPc : Prop :=
  ∀ s : State,
    (∀ w rest, s.stack = w :: rest → ∃ t, exec .ret s = .next t ∧
      t.pc = w ∧ t.stack = rest ∧
      SameRegsBut (fun _ => False) s t ∧ SameMem s t ∧ t.i = s.i ∧ t.fb = s.fb ∧
      SameTimersAndPorts s t ∧ t.draws = s.draws) ∧
    (s.stack = [] → ∃ t, exec .ret s = .next t ∧ t.latch = .faulted (.stackUnderflow s.pc))

/-- 41_control_transfer.md, CALL and RET: a return right after a call comes back to the word after
the call with the stack as it was. -/
def Obligations.RetUndoesCall : Prop :=
  ∀ (nnn : Addr12) (s : State), s.stack.length < 16 →
    ∃ t u, exec (.call nnn) s = .next t ∧ exec .ret t = .next u ∧
      u.pc = s.pc + 2#16 ∧ u.stack = s.stack

/-- R163 to R166: the four register skips, and the words with N != 0 of their groups. -/
def Obligations.RegisterSkipsTestTheirOperands : Prop :=
  (∀ (x : Nibble) (nn : Byte) (s : State), ∃ t, exec (.skipEqConst x nn) s = .next t ∧
    (s.getV x = nn → t.pc = s.pc + 4#16) ∧ (s.getV x ≠ nn → t.pc = s.pc + 2#16) ∧ OnlyPc s t) ∧
  (∀ (x : Nibble) (nn : Byte) (s : State), ∃ t, exec (.skipNeConst x nn) s = .next t ∧
    (s.getV x ≠ nn → t.pc = s.pc + 4#16) ∧ (s.getV x = nn → t.pc = s.pc + 2#16) ∧ OnlyPc s t) ∧
  (∀ (x y : Nibble) (s : State), ∃ t, exec (.skipEqReg x y) s = .next t ∧
    (s.getV x = s.getV y → t.pc = s.pc + 4#16) ∧
    (s.getV x ≠ s.getV y → t.pc = s.pc + 2#16) ∧ OnlyPc s t) ∧
  (∀ (x y : Nibble) (s : State), ∃ t, exec (.skipNeReg x y) s = .next t ∧
    (s.getV x ≠ s.getV y → t.pc = s.pc + 4#16) ∧
    (s.getV x = s.getV y → t.pc = s.pc + 2#16) ∧ OnlyPc s t) ∧
  (∀ w : Word, fieldC w = 0x5#4 ∨ fieldC w = 0x9#4 → fieldN w ≠ 0x0#4 →
    decode w = .error (.unknownOpcode w))

/-- 41_control_transfer.md, JP V0 (no wrap: choice D4): pc is the exact sum of the base address and
V0, at most 0x10FE. -/
def Obligations.JumpOffsetAddsV0 : Prop :=
  ∀ (nnn : Addr12) (s : State), ∃ t, exec (.jumpOffset nnn) s = .next t ∧
    t.pc.toNat = nnn.toNat + (s.getV 0x0#4).toNat ∧ t.pc.toNat ≤ 0x10FE ∧ OnlyPc s t

/-! ### Arithmetic, logic and random -/

/-- R182: LD Vx, nn. -/
def Obligations.SetConstLoadsImmediate : Prop :=
  ∀ (x : Nibble) (nn : Byte) (s : State), ∃ t, exec (.setConst x nn) s = .next t ∧
    t.getV x = nn ∧ t.pc = s.pc + 2#16 ∧ OnlyRegsAndPc (fun q => q = x) s t

/-- 42_arithmetic.md sections 2 and 3 (VF left alone: choice D10; LD Vx, Vy: choice D13): the sum
mod 256 with no flag, and the register copy. -/
def Obligations.AddConstAndSetRegWriteNoFlag : Prop :=
  (∀ (x : Nibble) (nn : Byte) (s : State), ∃ t, exec (.addConst x nn) s = .next t ∧
    (t.getV x).toNat = ((s.getV x).toNat + nn.toNat) % 256 ∧ t.pc = s.pc + 2#16 ∧
    OnlyRegsAndPc (fun q => q = x) s t) ∧
  (∀ (x y : Nibble) (s : State), ∃ t, exec (.setReg x y) s = .next t ∧
    t.getV x = s.getV y ∧ t.pc = s.pc + 2#16 ∧ OnlyRegsAndPc (fun q => q = x) s t)

/-- 42_arithmetic.md section 3, OR, AND, XOR (VF left alone: choice D10): bit by bit, with the first
operand as destination. -/
def Obligations.LogicOperationsAreBitwise : Prop :=
  (∀ (x y : Nibble) (s : State), ∃ t, exec (.orReg x y) s = .next t ∧
    (∀ k, (t.getV x).getLsbD k = ((s.getV x).getLsbD k || (s.getV y).getLsbD k)) ∧
    t.pc = s.pc + 2#16 ∧ OnlyRegsAndPc (fun q => q = x) s t) ∧
  (∀ (x y : Nibble) (s : State), ∃ t, exec (.andReg x y) s = .next t ∧
    (∀ k, (t.getV x).getLsbD k = ((s.getV x).getLsbD k && (s.getV y).getLsbD k)) ∧
    t.pc = s.pc + 2#16 ∧ OnlyRegsAndPc (fun q => q = x) s t) ∧
  (∀ (x y : Nibble) (s : State), ∃ t, exec (.xorReg x y) s = .next t ∧
    (∀ k, (t.getV x).getLsbD k = ((s.getV x).getLsbD k ^^ (s.getV y).getLsbD k)) ∧
    t.pc = s.pc + 2#16 ∧ OnlyRegsAndPc (fun q => q = x) s t)

/-- R188: ADD Vx, Vy. -/
def Obligations.AddRegWritesSumAndCarry : Prop :=
  ∀ (x y : Nibble) (s : State), ∃ t, exec (.addReg x y) s = .next t ∧
    WritesResultAndFlag x (((s.getV x).toNat + (s.getV y).toNat) % 256)
      (if 255 < (s.getV x).toNat + (s.getV y).toNat then 1 else 0) s t

/-- R189: SUB Vx, Vy. -/
def Obligations.SubWritesDifferenceAndNotBorrow : Prop :=
  ∀ (x y : Nibble) (s : State), ∃ t, exec (.sub x y) s = .next t ∧
    WritesResultAndFlag x
      (if (s.getV y).toNat ≤ (s.getV x).toNat then (s.getV x).toNat - (s.getV y).toNat
        else (s.getV x).toNat + 256 - (s.getV y).toNat)
      (if (s.getV y).toNat ≤ (s.getV x).toNat then 1 else 0) s t

/-- R191: SUBN Vx, Vy. -/
def Obligations.SubReverseWritesDifferenceAndNotBorrow : Prop :=
  ∀ (x y : Nibble) (s : State), ∃ t, exec (.subReverse x y) s = .next t ∧
    WritesResultAndFlag x
      (if (s.getV x).toNat ≤ (s.getV y).toNat then (s.getV y).toNat - (s.getV x).toNat
        else (s.getV y).toNat + 256 - (s.getV x).toNat)
      (if (s.getV x).toNat ≤ (s.getV y).toNat then 1 else 0) s t

/-- 42_arithmetic.md section 3, SHR and SHL (the register shifted is Vx: choice D8): the shifted
value and the bit shifted out. -/
def Obligations.ShiftsWriteTheBitShiftedOut : Prop :=
  (∀ (x : Nibble) (s : State), ∃ t, exec (.shiftRight x) s = .next t ∧
    WritesResultAndFlag x ((s.getV x).toNat / 2) ((s.getV x).toNat % 2) s t) ∧
  (∀ (x : Nibble) (s : State), ∃ t, exec (.shiftLeft x) s = .next t ∧
    WritesResultAndFlag x (2 * (s.getV x).toNat % 256) ((s.getV x).toNat / 128) s t)

/-- 42_arithmetic.md section 4 (choice D12; the draw: log 8): a fresh draw masked with nn; whatever
the draw, bits where nn is 0 are 0. -/
def Obligations.RandomMasksAFreshDraw : Prop :=
  ∀ (x : Nibble) (nn : Byte) (s : State), ∃ t, exec (.random x nn) s = .next t ∧
    (∀ k, (t.getV x).getLsbD k = ((Config.rng s.draws).getLsbD k && nn.getLsbD k)) ∧
    t.draws = s.draws + 1 ∧ t.pc = s.pc + 2#16 ∧
    SameRegsBut (fun q => q = x) s t ∧ SameMem s t ∧ t.i = s.i ∧ t.stack = s.stack ∧
    t.fb = s.fb ∧ SameTimersAndPorts s t

/-! ### Address register and memory block -/

/-- R211: LD I, nnn. -/
def Obligations.SetILoadsAddress : Prop :=
  ∀ (nnn : Addr12) (s : State), ∃ t, exec (.setI nnn) s = .next t ∧
    t.i.toNat = nnn.toNat ∧ t.pc = s.pc + 2#16 ∧
    SameRegsBut (fun _ => False) s t ∧ SameMem s t ∧ t.stack = s.stack ∧ t.fb = s.fb ∧
    SameTimersAndPorts s t ∧ t.draws = s.draws

/-- 43_memory_block.md, ADD I, Vx (choice D11): the sum mod 65536, no flag. -/
def Obligations.AddIWrapsAtSixteenBits : Prop :=
  ∀ (x : Nibble) (s : State), ∃ t, exec (.addI x) s = .next t ∧
    t.i.toNat = (s.i.toNat + (s.getV x).toNat) % 65536 ∧ t.pc = s.pc + 2#16 ∧
    SameRegsBut (fun _ => False) s t ∧ SameMem s t ∧ t.stack = s.stack ∧ t.fb = s.fb ∧
    SameTimersAndPorts s t ∧ t.draws = s.draws

/-- 43_memory_block.md, LD F, Vx (the bound 15: choice D15): I is the address of the glyph; a value
above 15 faults. -/
def Obligations.FontCharPointsAtGlyph : Prop :=
  ∀ (x : Nibble) (s : State),
    ((s.getV x).toNat ≤ 15 → ∃ t, exec (.fontChar x) s = .next t ∧
      t.i.toNat = 5 * (s.getV x).toNat ∧ t.pc = s.pc + 2#16 ∧
      SameRegsBut (fun _ => False) s t ∧ SameMem s t ∧ t.stack = s.stack ∧ t.fb = s.fb ∧
      SameTimersAndPorts s t ∧ t.draws = s.draws) ∧
    (15 < (s.getV x).toNat → ∃ t, exec (.fontChar x) s = .next t ∧
      t.latch = .faulted (.invalidFontIndex (s.getV x)))

/-- 43_memory_block.md, LD B, Vx: three decimal digits at I, I+1, I+2; digits that leave memory
fault at the first invalid address (the bounds: choice D4; the faulted next state: log 1). -/
def Obligations.BcdStoresThreeDigits : Prop :=
  ∀ (x : Nibble) (s : State), s.mem.wf →
    (s.i.toNat + 2 < 4096 → ∃ t, exec (.bcd x) s = .next t ∧
      (t.mem.read s.i.toNat).toNat = (s.getV x).toNat / 100 ∧
      (t.mem.read (s.i.toNat + 1)).toNat = (s.getV x).toNat / 10 % 10 ∧
      (t.mem.read (s.i.toNat + 2)).toNat = (s.getV x).toNat % 10 ∧
      SameMemOutside s.i.toNat 3 s t ∧ t.pc = s.pc + 2#16 ∧
      SameRegsBut (fun _ => False) s t ∧ t.i = s.i ∧ t.stack = s.stack ∧ t.fb = s.fb ∧
      SameTimersAndPorts s t ∧ t.draws = s.draws) ∧
    (4096 ≤ s.i.toNat + 2 → ∃ t, exec (.bcd x) s = .next t ∧
      t.latch = .faulted (.memoryOutOfRange
        (.addr (if 4096 ≤ s.i.toNat then s.i.toNat else 4096))))

/-- 43_memory_block.md, LD [I], Vx (I unchanged: choice D9): V0 to Vx at I, I+1, ...; a block that
leaves memory faults at its first invalid address. -/
def Obligations.DumpStoresTheBlock : Prop :=
  ∀ (x : Nibble) (s : State), s.mem.wf →
    (s.i.toNat + x.toNat < 4096 → ∃ t, exec (.dump x) s = .next t ∧
      (∀ r : Nibble, r.toNat ≤ x.toNat → t.mem.read (s.i.toNat + r.toNat) = s.getV r) ∧
      SameMemOutside s.i.toNat (x.toNat + 1) s t ∧ t.pc = s.pc + 2#16 ∧
      SameRegsBut (fun _ => False) s t ∧ t.i = s.i ∧ t.stack = s.stack ∧ t.fb = s.fb ∧
      SameTimersAndPorts s t ∧ t.draws = s.draws) ∧
    (4096 ≤ s.i.toNat + x.toNat → ∃ t, exec (.dump x) s = .next t ∧
      t.latch = .faulted (.memoryOutOfRange
        (.addr (if 4096 ≤ s.i.toNat then s.i.toNat else 4096))))

/-- 43_memory_block.md, LD Vx, [I] (I unchanged: choice D9): V0 to Vx from I, I+1, ...; a block that
leaves memory faults at its first invalid address. -/
def Obligations.LoadReadsTheBlock : Prop :=
  ∀ (x : Nibble) (s : State),
    (s.i.toNat + x.toNat < 4096 → ∃ t, exec (.load x) s = .next t ∧
      (∀ r : Nibble, r.toNat ≤ x.toNat → t.getV r = s.mem.read (s.i.toNat + r.toNat)) ∧
      t.pc = s.pc + 2#16 ∧ OnlyRegsAndPc (fun q => q.toNat ≤ x.toNat) s t) ∧
    (4096 ≤ s.i.toNat + x.toNat → ∃ t, exec (.load x) s = .next t ∧
      t.latch = .faulted (.memoryOutOfRange
        (.addr (if 4096 ≤ s.i.toNat then s.i.toNat else 4096))))

/-- 43_memory_block.md, LD [I], Vx and LD Vx, [I]: "register load is the inverse" of the dump: a
load right after a dump leaves every register and the memory as the dump left them. -/
def Obligations.LoadAfterDumpKeepsRegisters : Prop :=
  ∀ (x : Nibble) (s : State), s.mem.wf → s.i.toNat + x.toNat < 4096 →
    ∃ t u, exec (.dump x) s = .next t ∧ exec (.load x) t = .next u ∧
      (∀ r, u.getV r = s.getV r) ∧ SameMem t u

/-! ### Drawing -/

/-- R240: CLS. -/
def Obligations.ClearScreenClearsEveryPixel : Prop :=
  ∀ s : State, ∃ t, exec .clearScreen s = .next t ∧
    (∀ x y, t.fb.get x y = false) ∧ t.pc = s.pc + 2#16 ∧
    SameRegsBut (fun _ => False) s t ∧ SameMem s t ∧ t.i = s.i ∧ t.stack = s.stack ∧
    SameTimersAndPorts s t ∧ t.draws = s.draws

/-- 44_drawing.md (bit order and coordinates: choice D18; n = 0: choice D17): DRW flips exactly the
pixels a set sprite bit lands on, VF tells whether one of them was set, and nothing else changes;
a sprite that leaves memory faults at its first invalid address. -/
def Obligations.DrawXorsTheSprite : Prop :=
  ∀ (x y n : Nibble) (s : State),
    (n.toNat = 0 ∨ s.i.toNat + n.toNat ≤ 4096 → ∃ t, exec (.draw x y n) s = .next t ∧
      (∀ q p, SpriteCovers s x y n q p → t.fb.get q p = !s.fb.get q p) ∧
      (∀ q p, ¬ SpriteCovers s x y n q p → t.fb.get q p = s.fb.get q p) ∧
      ((∃ q p, SpriteCovers s x y n q p ∧ s.fb.get q p = true) → t.getV vf = 1#8) ∧
      ((¬ ∃ q p, SpriteCovers s x y n q p ∧ s.fb.get q p = true) → t.getV vf = 0#8) ∧
      t.pc = s.pc + 2#16 ∧ SameRegsBut (fun q => q = vf) s t ∧ SameMem s t ∧ t.i = s.i ∧
      t.stack = s.stack ∧ SameTimersAndPorts s t ∧ t.draws = s.draws) ∧
    (0 < n.toNat → 4096 < s.i.toNat + n.toNat → ∃ t, exec (.draw x y n) s = .next t ∧
      t.latch = .faulted (.memoryOutOfRange
        (.addr (if 4096 ≤ s.i.toNat then s.i.toNat else 4096))))

/-- 44_drawing.md, DRW: drawing the same sprite twice at the same place (its coordinates not in VF)
restores every pixel. -/
def Obligations.DrawTwiceRestoresTheImage : Prop :=
  ∀ (x y n : Nibble) (s : State), x ≠ vf → y ≠ vf →
    n.toNat = 0 ∨ s.i.toNat + n.toNat ≤ 4096 →
    ∃ t u, exec (.draw x y n) s = .next t ∧ exec (.draw x y n) t = .next u ∧ u.fb = s.fb

/-! ### Timers -/

/-- R260, R261, R262: the three moves between registers and timers. -/
def Obligations.TimerMovesCopyTheirOperand : Prop :=
  (∀ (x : Nibble) (s : State), ∃ t, exec (.getDelay x) s = .next t ∧
    t.getV x = s.dt ∧ t.pc = s.pc + 2#16 ∧ OnlyRegsAndPc (fun q => q = x) s t) ∧
  (∀ (x : Nibble) (s : State), ∃ t, exec (.setDelay x) s = .next t ∧
    t.dt = s.getV x ∧ t.st = s.st ∧ t.pc = s.pc + 2#16 ∧
    SameRegsBut (fun _ => False) s t ∧ SameMem s t ∧ t.i = s.i ∧ t.stack = s.stack ∧
    t.fb = s.fb ∧ t.latch = s.latch ∧ t.keys = s.keys ∧ t.schedule = s.schedule ∧
    t.draws = s.draws) ∧
  (∀ (x : Nibble) (s : State), ∃ t, exec (.setSound x) s = .next t ∧
    t.st = s.getV x ∧ t.dt = s.dt ∧ (t.tone = true ↔ s.getV x ≠ 0#8) ∧ t.pc = s.pc + 2#16 ∧
    SameRegsBut (fun _ => False) s t ∧ SameMem s t ∧ t.i = s.i ∧ t.stack = s.stack ∧
    t.fb = s.fb ∧ t.latch = s.latch ∧ t.keys = s.keys ∧ t.schedule = s.schedule ∧
    t.draws = s.draws)

/-- R320: one tick step on a running core takes one from each timer that is not zero, and changes
nothing else. (`StoppedCoreRefusesStrobes` says what a tick strobe does on a stopped core.) -/
def Obligations.TickDecrementsBothTimers : Prop :=
  ∀ s : State, s.Running → ∃ t, tickStep s = .next t ∧
    t.dt.toNat = s.dt.toNat - 1 ∧ t.st.toNat = s.st.toNat - 1 ∧
    t.v = s.v ∧ t.mem = s.mem ∧ t.i = s.i ∧ t.pc = s.pc ∧ t.stack = s.stack ∧ t.fb = s.fb ∧
    t.latch = s.latch ∧ t.keys = s.keys ∧ t.draws = s.draws ∧ t.schedule = s.schedule

/-- 60_exceptions.md section 5, the saturation law: n ticks in a row leave `max(v - n, 0)` in each
timer. -/
def Obligations.TicksSaturateAtZero : Prop :=
  ∀ (n : Nat) (s : State) (rest : List HostAction), s.Running →
    s.schedule = List.replicate n .tick ++ rest →
    ∃ t, Sys2Proof.core.run n s = .next t ∧
      t.dt.toNat = s.dt.toNat - n ∧ t.st.toNat = s.st.toNat - n

/-- 60_exceptions.md section 5: the tone is on exactly while ST > 0; a tick turns it off from ST =
1; an instruction other than FX18 that raises no fault leaves it. -/
def Obligations.ToneChangesOnlyBySoundTimer : Prop :=
  (∀ s : State, s.tone = true ↔ 0 < s.st.toNat) ∧
  (∀ s : State, s.Running → nextAction s = .tick →
    ∃ t, step s = .next t ∧ (t.tone = true ↔ 1 < s.st.toNat)) ∧
  (∀ (i : Instr) (s t : State), s.Running → exec i s = .next t → t.Running →
    (∀ x, i ≠ .setSound x) → t.tone = s.tone)

/-- 10_state.md section 6 and 20_memory.md section 6: no instruction reads ST, and none but FX07
reads DT: changing them beforehand changes no fault raised and, where none is, nothing but DT and
ST afterwards (the draw of RND is the same in both runs: log 8). -/
def Obligations.TimersAreReadOnlyByGetDelay : Prop :=
  ∀ (i : Instr) (s t t' : State) (d e : Byte), (∀ x, i = .getDelay x → d = s.dt) →
    exec i s = .next t → exec i { s with dt := d, st := e } = .next t' →
    t'.latch = t.latch ∧ (t.Running → { t' with dt := t.dt, st := t.st } = t)

/-! ### Input and system -/

/-- 46_input_system.md, SKP and SKNP (a value above 15 faults: choice D14): the key the register's
value names decides the skip. -/
def Obligations.KeySkipsReadTheNamedKey : Prop :=
  ∀ (x : Nibble) (s : State),
    ((s.getV x).toNat ≤ 15 →
      (∃ t, exec (.skipKeyPressed x) s = .next t ∧ OnlyPc s t ∧
        t.pc = if s.keys.getLsbD (s.getV x).toNat then s.pc + 4#16 else s.pc + 2#16) ∧
      (∃ t, exec (.skipKeyNotPressed x) s = .next t ∧ OnlyPc s t ∧
        t.pc = if s.keys.getLsbD (s.getV x).toNat then s.pc + 2#16 else s.pc + 4#16)) ∧
    (15 < (s.getV x).toNat →
      (∃ t, exec (.skipKeyPressed x) s = .next t ∧
        t.latch = .faulted (.invalidKeyIndex (s.getV x))) ∧
      (∃ t, exec (.skipKeyNotPressed x) s = .next t ∧
        t.latch = .faulted (.invalidKeyIndex (s.getV x))))

/-- R282: LD Vx, K waits with everything unchanged while no key is pressed, and otherwise takes the
pressed key that `keys.first_pressed()` answers. -/
def Obligations.AwaitInputWaitsForAKey : Prop :=
  ∀ (x : Nibble) (s : State),
    ((∀ k : Nibble, isPressed s.keys k = false) → exec (.awaitInput x) s = .next s) ∧
    ((∃ k : Nibble, isPressed s.keys k = true) →
      ∃ t k, exec (.awaitInput x) s = .next t ∧
        firstPressed s.keys = some k ∧ isPressed s.keys k = true ∧
        (t.getV x).toNat = k.toNat ∧ t.pc = s.pc + 2#16 ∧ OnlyRegsAndPc (fun q => q = x) s t)

/-- 46_input_system.md, SYS (its extent: choice D30): every word of group 0 but 00E0 and 00EE is a
SYS, and SYS changes nothing but pc. -/
def Obligations.SysIsANoOp : Prop :=
  (∀ w : Word, fieldC w = 0x0#4 → w ≠ 0x00E0#16 → w ≠ 0x00EE#16 →
    decode w = .ok (.sys (fieldNNN w))) ∧
  (∀ (nnn : Addr12) (s : State), ∃ t, exec (.sys nnn) s = .next t ∧
    t.pc = s.pc + 2#16 ∧ OnlyPc s t)

/-- 10_state.md section 11 (as steps of their own: log 5): a press or release changes the state of
that key and nothing else. -/
def Obligations.KeyActionsChangeOneKey : Prop :=
  ∀ (s : State) (k : Nibble) (rest : List HostAction),
    (s.schedule = .press k :: rest → ∃ t, step s = .next t ∧
      (∀ q, isPressed t.keys q = true ↔ q = k ∨ isPressed s.keys q = true) ∧
      { t with keys := s.keys, schedule := s.schedule } = s ∧ t.schedule = rest) ∧
    (s.schedule = .release k :: rest → ∃ t, step s = .next t ∧
      (∀ q, isPressed t.keys q = true ↔ q ≠ k ∧ isPressed s.keys q = true) ∧
      { t with keys := s.keys, schedule := s.schedule } = s ∧ t.schedule = rest)

/-! ### Faults and load -/

/-- 60_exceptions.md section 2 (the latch: choice D20; the stop of a refused strobe: log 2): a
stopped core takes no cycle and no tick. -/
def Obligations.StoppedCoreRefusesStrobes : Prop :=
  ∀ (s : State) (c : FaultCause), s.latch = .faulted c →
    nextAction s = .cycle ∨ nextAction s = .tick → step s = .fault (.coreStopped c)

/-- 60_exceptions.md section 2 (choice D20): once latched, a fault stays through every step but a
load, which leaves a running core. -/
def Obligations.OnlyLoadLeavesAFault : Prop :=
  ∀ (s t : State) (c : FaultCause), s.latch = .faulted c → step s = .next t →
    t.latch = .faulted c ∨ ((∃ im rest, s.schedule = .load im :: rest) ∧ t.Running)

/-- 70_reset_and_hazards.md section 1 and 10_state.md section 10 (values: choice D1, D2, D26; what
load keeps: log 6): an image that fits is loaded verbatim at 0x200 over the font and zero, and
every component takes its reset value, from every state, a faulted one too. -/
def Obligations.LoadGivesTheResetState : Prop :=
  ∀ (s : State) (im : List Byte) (rest : List HostAction),
    s.schedule = .load im :: rest → im.length ≤ 3584 →
    ∃ t, step s = .next t ∧
      (∀ k, k < im.length → t.mem.read (0x200 + k) = im.getD k 0#8) ∧
      (∀ a, a < 0x200 ∨ 0x200 + im.length ≤ a → t.mem.read a = State.reset.mem.read a) ∧
      t.mem.wf ∧ t.v = State.reset.v ∧ t.i = 0#16 ∧ t.pc = 0x200#16 ∧ t.stack = [] ∧
      t.dt = 0#8 ∧ t.st = 0#8 ∧ t.Running ∧ (∀ x y, t.fb.get x y = false) ∧
      t.keys = s.keys ∧ t.schedule = rest ∧ t.draws = s.draws

/-- 70_reset_and_hazards.md section 1 (choice D25): an image of more than 3584 bytes is refused. -/
def Obligations.OversizedImageIsRefused : Prop :=
  ∀ (s : State) (im : List Byte) (rest : List HostAction),
    s.schedule = .load im :: rest → 3584 < im.length →
    step s = .refused (.imageTooLong im.length)
end

