-- ==== Sys2Proof/Laws/Decode.lean ====
section
/-!
SUPPORT. The fields of a word as numbers, the word packed from fields as a number, and from these
every field of a packed word; the word of two bytes and its bytes.
-/

namespace Sys2Proof

/-! ### Fields and packed words as numbers -/

theorem fieldC_toNat (w : Word) : (fieldC w).toNat = w.toNat / 4096 := by
  have := w.isLt
  simp [fieldC, Nat.shiftRight_eq_div_pow]; omega

theorem fieldX_toNat (w : Word) : (fieldX w).toNat = w.toNat / 256 % 16 := by
  simp [fieldX, Nat.shiftRight_eq_div_pow]

theorem fieldY_toNat (w : Word) : (fieldY w).toNat = w.toNat / 16 % 16 := by
  simp [fieldY, Nat.shiftRight_eq_div_pow]

theorem fieldN_toNat (w : Word) : (fieldN w).toNat = w.toNat % 16 := by
  simp [fieldN]

theorem fieldNN_toNat (w : Word) : (fieldNN w).toNat = w.toNat % 256 := by
  simp [fieldNN]

theorem fieldNNN_toNat (w : Word) : (fieldNNN w).toNat = w.toNat % 4096 := by
  simp [fieldNNN]

theorem packXYN_toNat (c x y n : Nibble) :
    (packXYN c x y n).toNat = c.toNat * 4096 + x.toNat * 256 + y.toNat * 16 + n.toNat := by
  simp only [packXYN, BitVec.toNat_append]
  rw [← Nat.shiftLeft_add_eq_or_of_lt x.isLt, ← Nat.shiftLeft_add_eq_or_of_lt y.isLt,
    ← Nat.shiftLeft_add_eq_or_of_lt n.isLt]
  simp only [Nat.shiftLeft_eq]; omega

theorem packXNN_toNat (c x : Nibble) (nn : Byte) :
    (packXNN c x nn).toNat = c.toNat * 4096 + x.toNat * 256 + nn.toNat := by
  simp only [packXNN, BitVec.toNat_append]
  rw [← Nat.shiftLeft_add_eq_or_of_lt x.isLt, ← Nat.shiftLeft_add_eq_or_of_lt nn.isLt]
  simp only [Nat.shiftLeft_eq]; omega

theorem packNNN_toNat (c : Nibble) (nnn : Addr12) :
    (packNNN c nnn).toNat = c.toNat * 4096 + nnn.toNat := by
  simp only [packNNN, BitVec.toNat_append]
  rw [← Nat.shiftLeft_add_eq_or_of_lt nnn.isLt]
  simp only [Nat.shiftLeft_eq]

/-! ### The fields of a packed word -/

@[simp] theorem fieldC_packXYN (c x y n : Nibble) : fieldC (packXYN c x y n) = c := by
  apply BitVec.eq_of_toNat_eq; rw [fieldC_toNat, packXYN_toNat]; omega

@[simp] theorem fieldX_packXYN (c x y n : Nibble) : fieldX (packXYN c x y n) = x := by
  apply BitVec.eq_of_toNat_eq; rw [fieldX_toNat, packXYN_toNat]; omega

@[simp] theorem fieldY_packXYN (c x y n : Nibble) : fieldY (packXYN c x y n) = y := by
  apply BitVec.eq_of_toNat_eq; rw [fieldY_toNat, packXYN_toNat]; omega

@[simp] theorem fieldN_packXYN (c x y n : Nibble) : fieldN (packXYN c x y n) = n := by
  apply BitVec.eq_of_toNat_eq; rw [fieldN_toNat, packXYN_toNat]; omega

@[simp] theorem fieldC_packXNN (c x : Nibble) (nn : Byte) : fieldC (packXNN c x nn) = c := by
  apply BitVec.eq_of_toNat_eq; rw [fieldC_toNat, packXNN_toNat]; omega

@[simp] theorem fieldX_packXNN (c x : Nibble) (nn : Byte) : fieldX (packXNN c x nn) = x := by
  apply BitVec.eq_of_toNat_eq; rw [fieldX_toNat, packXNN_toNat]; omega

@[simp] theorem fieldNN_packXNN (c x : Nibble) (nn : Byte) : fieldNN (packXNN c x nn) = nn := by
  apply BitVec.eq_of_toNat_eq; rw [fieldNN_toNat, packXNN_toNat]; omega

@[simp] theorem fieldC_packNNN (c : Nibble) (nnn : Addr12) : fieldC (packNNN c nnn) = c := by
  apply BitVec.eq_of_toNat_eq; rw [fieldC_toNat, packNNN_toNat]; omega

@[simp] theorem fieldNNN_packNNN (c : Nibble) (nnn : Addr12) :
    fieldNNN (packNNN c nnn) = nnn := by
  apply BitVec.eq_of_toNat_eq; rw [fieldNNN_toNat, packNNN_toNat]; omega

/-! ### The two bytes of a word (R64) -/

theorem wordOfBytes_toNat (hi lo : Byte) :
    (wordOfBytes hi lo).toNat = hi.toNat * 256 + lo.toNat := by
  simp only [wordOfBytes, BitVec.toNat_append]
  rw [← Nat.shiftLeft_add_eq_or_of_lt lo.isLt]
  simp only [Nat.shiftLeft_eq]

theorem highByte_toNat (w : Word) : (highByte w).toNat = w.toNat / 256 := by
  have := w.isLt
  simp [highByte, Nat.shiftRight_eq_div_pow]; omega

theorem lowByte_toNat (w : Word) : (lowByte w).toNat = w.toNat % 256 := by
  simp [lowByte]

@[simp] theorem wordOfBytes_high_low (w : Word) : wordOfBytes (highByte w) (lowByte w) = w := by
  apply BitVec.eq_of_toNat_eq
  rw [wordOfBytes_toNat, highByte_toNat, lowByte_toNat]; omega

/-- Decoding the two bytes of a word is decoding the word (R64, R93). -/
theorem decodeBytes_word (w : Word) (rest : List Byte) :
    decodeBytes (highByte w :: lowByte w :: rest) =
      match decode w with
      | .ok i => .ok (i, rest)
      | .error e => .error e := by
  cases h : decode w <;> simp [decodeBytes, h]

end Sys2Proof
end

