-- ==== Sys2Proof/Laws/Memory.lean ====
section
/-!
SUPPORT. Memory: read after write, the canonical form kept by every memory operation, and what the
byte-block reads and writes do.
-/

namespace Sys2Proof.Machine

/-! ### Read after write -/

theorem read_nil (a : Nat) : Memory.read [] a = resetByte a := by rfl

theorem read_cons (k : Nat) (c : Byte) (m : Memory) (a : Nat) :
    Memory.read ((k, c) :: m) a = if k = a then c else Memory.read m a := by rfl

theorem read_insert (m : Memory) (a : Nat) (b : Byte) (q : Nat) :
    Memory.read (Memory.insert a b m) q = if q = a then b else Memory.read m q := by
  induction m with
  | nil => simp [Memory.insert, read_cons, read_nil, eq_comm]
  | cons c m ih =>
    obtain ⟨k, v⟩ := c
    simp only [Memory.insert]
    split
    · simp [read_cons, eq_comm]
    · split
      · next h => subst h; simp only [read_cons, eq_comm (a := q)]; split <;> rfl
      · next h1 h2 =>
        simp only [read_cons, ih]
        by_cases hk : k = q
        · subst hk; simp [Ne.symm h2]
        · simp [hk]

/-- An address below every listed one reads as unlisted. -/
theorem read_of_lt (m : Memory) (a : Nat) (h : ∀ c ∈ m, a < c.1) :
    Memory.read m a = resetByte a := by
  induction m with
  | nil => rfl
  | cons c m ih =>
    obtain ⟨k, v⟩ := c
    have hk : k ≠ a := by have := h (k, v) (by simp); simp at this; omega
    rw [read_cons, if_neg hk]
    exact ih (fun c hc => h c (by simp [hc]))

theorem read_erase (m : Memory) (hm : m.Pairwise (fun c d => c.1 < d.1)) (a q : Nat) :
    Memory.read (Memory.erase a m) q = if q = a then resetByte a else Memory.read m q := by
  induction m with
  | nil => by_cases h : q = a <;> simp [Memory.erase, read_nil, h]
  | cons c m ih =>
    obtain ⟨k, v⟩ := c
    obtain ⟨h1, h2⟩ := List.pairwise_cons.mp hm
    simp only [Memory.erase]
    split
    · next h =>
      subst h
      by_cases hq : q = k
      · subst hq; simpa using read_of_lt m q h1
      · simp [read_cons, hq, Ne.symm hq]
    · next h =>
      rw [read_cons, read_cons, ih h2]
      by_cases hk : k = q
      · subst hk; simp [h]
      · simp [hk]

/-- A read after a write: the byte written at that address, the old byte elsewhere (R67). -/
theorem read_write (m : Memory) (hm : m.wf) (a : Nat) (b : Byte) (q : Nat) :
    Memory.read (Memory.write m a b) q = if q = a then b else Memory.read m q := by
  unfold Memory.write
  split
  · next h => rw [read_erase m hm.1, h]
  · exact read_insert m a b q

theorem read_erase_of_ne (m : Memory) {a q : Nat} (h : q ≠ a) :
    Memory.read (Memory.erase a m) q = Memory.read m q := by
  induction m with
  | nil => rfl
  | cons c m ih =>
    obtain ⟨k, v⟩ := c
    simp only [Memory.erase]
    split
    · next hk => subst hk; rw [read_cons, if_neg (Ne.symm h)]
    · rw [read_cons, read_cons, ih]

/-- A write leaves every other address as it was, in any memory. -/
theorem read_write_of_ne (m : Memory) {a q : Nat} (b : Byte) (h : q ≠ a) :
    Memory.read (Memory.write m a b) q = Memory.read m q := by
  unfold Memory.write
  split
  · exact read_erase_of_ne m h
  · rw [read_insert, if_neg h]

/-! ### The canonical form is kept -/

theorem mem_insert {m : Memory} {a : Nat} {b : Byte} {c : Host.Cell}
    (h : c ∈ Memory.insert a b m) : c = (a, b) ∨ c ∈ m := by
  induction m with
  | nil => simpa [Memory.insert] using h
  | cons d m ih =>
    obtain ⟨k, v⟩ := d
    simp only [Memory.insert] at h
    split at h
    · simpa using h
    · split at h
      · rcases List.mem_cons.mp h with h | h
        · exact .inl h
        · exact .inr (by simp [h])
      · rcases List.mem_cons.mp h with h | h
        · exact .inr (by simp [h])
        · rcases ih h with h | h
          · exact .inl h
          · exact .inr (by simp [h])

theorem mem_erase {m : Memory} {a : Nat} {c : Host.Cell} (h : c ∈ Memory.erase a m) : c ∈ m := by
  induction m with
  | nil => simp [Memory.erase] at h
  | cons d m ih =>
    obtain ⟨k, v⟩ := d
    simp only [Memory.erase] at h
    split at h
    · simp [h]
    · rcases List.mem_cons.mp h with h | h
      · simp [h]
      · simp [ih h]

theorem insert_sorted {m : Memory} (hm : m.Pairwise (fun c d => c.1 < d.1)) (a : Nat) (b : Byte) :
    (Memory.insert a b m).Pairwise (fun c d => c.1 < d.1) := by
  induction m with
  | nil => simp [Memory.insert]
  | cons c m ih =>
    obtain ⟨k, v⟩ := c
    have hm' := List.pairwise_cons.mp hm
    simp only [Memory.insert]
    split
    · next h =>
      refine List.pairwise_cons.mpr ⟨fun d hd => ?_, hm⟩
      rcases List.mem_cons.mp hd with hd | hd
      · subst hd; exact h
      · have := hm'.1 d hd; simp at this ⊢; omega
    · split
      · next h => subst h; exact List.pairwise_cons.mpr ⟨hm'.1, hm'.2⟩
      · next h1 h2 =>
        refine List.pairwise_cons.mpr ⟨fun d hd => ?_, ih hm'.2⟩
        rcases mem_insert hd with hd | hd
        · subst hd; simp; omega
        · exact hm'.1 d hd

theorem erase_sorted {m : Memory} (hm : m.Pairwise (fun c d => c.1 < d.1)) (a : Nat) :
    (Memory.erase a m).Pairwise (fun c d => c.1 < d.1) := by
  induction m with
  | nil => simp [Memory.erase]
  | cons c m ih =>
    obtain ⟨k, v⟩ := c
    have hm' := List.pairwise_cons.mp hm
    simp only [Memory.erase]
    split
    · exact hm'.2
    · exact List.pairwise_cons.mpr ⟨fun d hd => hm'.1 d (mem_erase hd), ih hm'.2⟩

/-- A write inside the address space keeps the canonical form. -/
theorem write_wf {m : Memory} (hm : m.wf) {a : Nat} (ha : a < 4096) (b : Byte) :
    (Memory.write m a b).wf := by
  unfold Memory.write
  split
  · exact ⟨erase_sorted hm.1 a, fun c hc => hm.2 c (mem_erase hc)⟩
  · next hb =>
    refine ⟨insert_sorted hm.1 a b, fun c hc => ?_⟩
    rcases mem_insert hc with hc | hc
    · subst hc; exact ⟨ha, hb⟩
    · exact hm.2 c hc

theorem nil_wf : Memory.wf [] := by simp [Memory.wf]

/-- Consecutive writes inside the address space keep the canonical form. -/
theorem writeAll_wf {m : Memory} (hm : m.wf) {a : Nat} {bs : List Byte}
    (h : a + bs.length ≤ 4096) : (Memory.writeAll m a bs).wf := by
  induction bs generalizing m a with
  | nil => exact hm
  | cons b bs ih =>
    simp only [List.length_cons] at h
    exact ih (write_wf hm (by omega) b) (by omega)

/-- A memory built from its bytes is in canonical form. -/
theorem ofBytes_wf (f : Nat → Byte) : (Memory.ofBytes f).wf := by
  unfold Memory.ofBytes
  refine ⟨?_, fun c hc => ?_⟩
  · refine List.Pairwise.filterMap _ ?_ List.pairwise_lt_range
    intro a a' h b hb b' hb'
    split at hb <;> split at hb' <;> simp_all
    subst hb; subst hb'; exact h
  · obtain ⟨a, ha, h⟩ := List.mem_filterMap.mp hc
    split at h
    · simp at h
    · next hn =>
      simp only [Option.some.injEq] at h; subst h
      exact ⟨List.mem_range.mp ha, hn⟩

/-! ### Consecutive writes -/

/-- What `writeAll` leaves at every address: the written byte inside the block, the old one
outside. -/
theorem read_writeAll {m : Memory} (hm : m.wf) {a : Nat} {bs : List Byte}
    (h : a + bs.length ≤ 4096) (q : Nat) :
    (Memory.writeAll m a bs).read q =
      if q < a ∨ a + bs.length ≤ q then m.read q else bs.getD (q - a) 0#8 := by
  induction bs generalizing m a with
  | nil => simp only [Memory.writeAll, List.length_nil]; rw [if_pos (by omega)]
  | cons b bs ih =>
    simp only [List.length_cons] at h
    simp only [Memory.writeAll]
    rw [ih (write_wf hm (by omega) b) (by omega), read_write m hm]
    simp only [List.length_cons]
    by_cases hq : q = a
    · subst hq; simp
    · by_cases ho : q < a ∨ a + (bs.length + 1) ≤ q
      · rw [if_pos (by omega), if_pos ho, if_neg hq]
      · rw [if_neg (by omega), if_neg ho]
        obtain ⟨d, rfl⟩ : ∃ d, q = a + 1 + d := ⟨q - a - 1, by omega⟩
        have e1 : a + 1 + d - (a + 1) = d := by omega
        have e2 : a + 1 + d - a = d + 1 := by omega
        simp [e1, e2]

/-- Consecutive writes leave every address outside the block as it was, in any memory. -/
theorem read_writeAll_outside (m : Memory) {a q : Nat} {bs : List Byte}
    (h : q < a ∨ a + bs.length ≤ q) : (Memory.writeAll m a bs).read q = m.read q := by
  induction bs generalizing m a with
  | nil => rfl
  | cons b bs ih =>
    simp only [List.length_cons] at h
    rw [Memory.writeAll, ih _ (by omega), read_write_of_ne m b (by omega)]

/-! ### The bounds-checked accesses -/

theorem memRead_eq (a : Nat) (s : State) :
    memRead a s = if a < 4096 then .ok (s.mem.read a) else .error (.memoryOutOfRange (.addr a)) :=
  rfl

theorem memWrite_eq (a : Nat) (b : Byte) (s : State) :
    memWrite a b s =
      if a < 4096 then .ok { s with mem := s.mem.write a b }
      else .error (.memoryOutOfRange (.addr a)) := rfl

/-- `loadBytes` answers the bytes of the block, or the first invalid address (R62, R72). -/
theorem loadBytes_eq (s : State) (a n : Nat) :
    loadBytes s a n =
      if n = 0 ∨ a + n ≤ 4096 then .ok ((List.range n).map (fun k => s.mem.read (a + k)))
      else .error (.memoryOutOfRange (.addr (max a 4096))) := by
  induction n generalizing a with
  | zero => simp [loadBytes]
  | succ n ih =>
    simp only [loadBytes, memRead_eq, ih]
    by_cases ha : a < 4096
    · simp only [if_pos ha]
      by_cases hn : n = 0 ∨ a + 1 + n ≤ 4096
      · rw [if_pos hn, if_pos (by omega)]
        simp only [List.range_succ_eq_map, List.map_cons, List.map_map, Nat.add_zero]
        congr 2
        apply List.map_congr_left
        intro k _
        simp [Nat.add_comm, Nat.add_left_comm]
      · rw [if_neg hn, if_neg (by omega)]
        simp; omega
    · simp only [if_neg ha]
      rw [if_neg (by omega)]
      simp; omega

/-- `storeBytes` writes the block, or answers the first invalid address (R62, R72). -/
theorem storeBytes_eq (s : State) (a : Nat) (bs : List Byte) :
    storeBytes a bs s =
      if bs = [] ∨ a + bs.length ≤ 4096 then .ok { s with mem := s.mem.writeAll a bs }
      else .error (.memoryOutOfRange (.addr (max a 4096))) := by
  induction bs generalizing a s with
  | nil => simp [storeBytes, Memory.writeAll]
  | cons b bs ih =>
    simp only [storeBytes, memWrite_eq, List.length_cons]
    by_cases ha : a < 4096
    · simp only [if_pos ha, ih]
      by_cases hn : bs = [] ∨ a + 1 + bs.length ≤ 4096
      · rw [if_pos hn, if_pos]
        · rfl
        · rcases hn with hn | hn
          · subst hn; simp; omega
          · right; omega
      · rw [if_neg hn, if_neg]
        · simp; omega
        · simp only [not_or] at hn ⊢
          exact ⟨by simp, by omega⟩
    · simp only [if_neg ha]
      rw [if_neg (by simp; omega)]
      simp; omega

end Sys2Proof.Machine
end

