-- ==== Sys2Proof/Laws/State.lean ====
section
/-!
SUPPORT. One lemma per field per named update of the state, and the register file's read after
write.
-/

namespace Sys2Proof.Machine

/-! ### `State.setV` -/

@[simp] theorem setV_mem (s : State) (r : Nibble) (b : Byte) : (s.setV r b).mem = s.mem := rfl
@[simp] theorem setV_i (s : State) (r : Nibble) (b : Byte) : (s.setV r b).i = s.i := rfl
@[simp] theorem setV_pc (s : State) (r : Nibble) (b : Byte) : (s.setV r b).pc = s.pc := rfl
@[simp] theorem setV_stack (s : State) (r : Nibble) (b : Byte) : (s.setV r b).stack = s.stack := rfl
@[simp] theorem setV_dt (s : State) (r : Nibble) (b : Byte) : (s.setV r b).dt = s.dt := rfl
@[simp] theorem setV_st (s : State) (r : Nibble) (b : Byte) : (s.setV r b).st = s.st := rfl
@[simp] theorem setV_latch (s : State) (r : Nibble) (b : Byte) : (s.setV r b).latch = s.latch := rfl
@[simp] theorem setV_fb (s : State) (r : Nibble) (b : Byte) : (s.setV r b).fb = s.fb := rfl
@[simp] theorem setV_keys (s : State) (r : Nibble) (b : Byte) : (s.setV r b).keys = s.keys := rfl
@[simp] theorem setV_schedule (s : State) (r : Nibble) (b : Byte) :
    (s.setV r b).schedule = s.schedule := rfl
@[simp] theorem setV_draws (s : State) (r : Nibble) (b : Byte) : (s.setV r b).draws = s.draws := rfl

/-! ### `State.setBlock` -/

@[simp] theorem setBlock_mem (s : State) (bs : List Byte) : (s.setBlock bs).mem = s.mem := rfl
@[simp] theorem setBlock_i (s : State) (bs : List Byte) : (s.setBlock bs).i = s.i := rfl
@[simp] theorem setBlock_pc (s : State) (bs : List Byte) : (s.setBlock bs).pc = s.pc := rfl
@[simp] theorem setBlock_stack (s : State) (bs : List Byte) : (s.setBlock bs).stack = s.stack := rfl
@[simp] theorem setBlock_dt (s : State) (bs : List Byte) : (s.setBlock bs).dt = s.dt := rfl
@[simp] theorem setBlock_st (s : State) (bs : List Byte) : (s.setBlock bs).st = s.st := rfl
@[simp] theorem setBlock_latch (s : State) (bs : List Byte) : (s.setBlock bs).latch = s.latch := rfl
@[simp] theorem setBlock_fb (s : State) (bs : List Byte) : (s.setBlock bs).fb = s.fb := rfl
@[simp] theorem setBlock_keys (s : State) (bs : List Byte) : (s.setBlock bs).keys = s.keys := rfl
@[simp] theorem setBlock_schedule (s : State) (bs : List Byte) :
    (s.setBlock bs).schedule = s.schedule := rfl
@[simp] theorem setBlock_draws (s : State) (bs : List Byte) : (s.setBlock bs).draws = s.draws := rfl

/-! ### `State.advance` -/

@[simp] theorem advance_mem (s : State) (a : Advance) : (s.advance a).mem = s.mem := rfl
@[simp] theorem advance_v (s : State) (a : Advance) : (s.advance a).v = s.v := rfl
@[simp] theorem advance_i (s : State) (a : Advance) : (s.advance a).i = s.i := rfl
@[simp] theorem advance_pc (s : State) (a : Advance) : (s.advance a).pc = nextPc s.pc a := rfl
@[simp] theorem advance_stack (s : State) (a : Advance) : (s.advance a).stack = s.stack := rfl
@[simp] theorem advance_dt (s : State) (a : Advance) : (s.advance a).dt = s.dt := rfl
@[simp] theorem advance_st (s : State) (a : Advance) : (s.advance a).st = s.st := rfl
@[simp] theorem advance_latch (s : State) (a : Advance) : (s.advance a).latch = s.latch := rfl
@[simp] theorem advance_fb (s : State) (a : Advance) : (s.advance a).fb = s.fb := rfl
@[simp] theorem advance_keys (s : State) (a : Advance) : (s.advance a).keys = s.keys := rfl
@[simp] theorem advance_schedule (s : State) (a : Advance) :
    (s.advance a).schedule = s.schedule := rfl
@[simp] theorem advance_draws (s : State) (a : Advance) : (s.advance a).draws = s.draws := rfl
@[simp] theorem advance_getV (s : State) (a : Advance) (r : Nibble) :
    (s.advance a).getV r = s.getV r := rfl

@[simp] theorem nextPc_normal (pc : Word) : nextPc pc .normal = pc + 2#16 := by
  unfold nextPc; rfl
@[simp] theorem nextPc_skip (pc : Word) : nextPc pc .skip = pc + 4#16 := by
  unfold nextPc; rfl
@[simp] theorem nextPc_jump (pc t : Word) : nextPc pc (.jump t) = t := rfl
@[simp] theorem nextPc_await (pc : Word) : nextPc pc .await = pc := rfl

/-! ### `raise`: what is fixed after a fault -/

@[simp] theorem raise_latch (c : FaultCause) (s : State) : (raise c s).latch = .faulted c := rfl
@[simp] theorem raise_keys (c : FaultCause) (s : State) : (raise c s).keys = s.keys := rfl
@[simp] theorem raise_schedule (c : FaultCause) (s : State) :
    (raise c s).schedule = s.schedule := rfl
@[simp] theorem raise_draws (c : FaultCause) (s : State) : (raise c s).draws = s.draws + 1 := rfl

/-! ### `loadedState` and the other host actions -/

@[simp] theorem loadedState_latch (im : List Byte) (s : State) :
    (loadedState im s).latch = .running := rfl
@[simp] theorem loadedState_pc (im : List Byte) (s : State) :
    (loadedState im s).pc = 0x0200#16 := rfl
@[simp] theorem loadedState_stack (im : List Byte) (s : State) :
    (loadedState im s).stack = [] := rfl
@[simp] theorem loadedState_schedule (im : List Byte) (s : State) :
    (loadedState im s).schedule = s.schedule := rfl

/-- A load of the empty image into the reset state is the reset state (R340, R341; log 6). -/
theorem loadedState_nil_reset : loadedState [] State.reset = State.reset := rfl

/-! ### Registers read after they are written -/

@[simp] theorem getV_setV_same (s : State) (r : Nibble) (b : Byte) : (s.setV r b).getV r = b := by
  simp [State.getV, State.setV]

theorem getV_setV_ne (s : State) {r q : Nibble} (b : Byte) (h : q ≠ r) :
    (s.setV r b).getV q = s.getV q := by
  have hn : r.toNat ≠ q.toNat := fun e => h (BitVec.eq_of_toNat_eq e.symm)
  simp [State.getV, State.setV, hn]

theorem getV_setV (s : State) (r q : Nibble) (b : Byte) :
    (s.setV r b).getV q = if q = r then b else s.getV q := by
  split
  · next h => subst h; simp
  · next h => exact getV_setV_ne s b h

/-- `getV` reads `v` alone. -/
theorem getV_congr {s t : State} (h : t.v = s.v) (r : Nibble) : t.getV r = s.getV r := by
  simp [State.getV, h]

end Sys2Proof.Machine
end

