-- ==== Sys2Proof/Laws/Registers.lean ====
section
/-!
SUPPORT. The register block, the write of a result and its flag, the call stack and the key port:
one lemma for each operation that says what it does.
-/

namespace Sys2Proof.Machine

/-! ### A block of registers -/

theorem getElem_writeFrom (v : Regs) (k : Nat) (bs : List Byte) (j : Nat) (hj : j < 16) :
    (Regs.writeFrom v k bs)[j] = if k ≤ j ∧ j < k + bs.length then bs.getD (j - k) 0#8 else v[j] := by
  induction bs generalizing v k with
  | nil => simp only [Regs.writeFrom, List.length_nil]; rw [if_neg (by omega)]
  | cons b bs ih =>
    simp only [Regs.writeFrom, ih, List.length_cons]
    by_cases h1 : k + 1 ≤ j ∧ j < k + 1 + bs.length
    · rw [if_pos h1, if_pos (by omega)]
      obtain ⟨d, rfl⟩ : ∃ d, j = k + 1 + d := ⟨j - k - 1, by omega⟩
      have e1 : k + 1 + d - (k + 1) = d := by omega
      have e2 : k + 1 + d - k = d + 1 := by omega
      simp [e1, e2]
    · rw [if_neg h1]
      by_cases h2 : k = j
      · subst h2; simp
      · rw [if_neg (by omega)]
        exact Vector.getElem_setIfInBounds_ne hj h2

/-- `V[r]` after `V[0], V[1], ...` are written with the bytes of a list. -/
theorem getV_setBlock (s : State) (bs : List Byte) (r : Nibble) :
    (s.setBlock bs).getV r = if r.toNat < bs.length then bs.getD r.toNat 0#8 else s.getV r := by
  simp only [State.getV, State.setBlock, getElem_writeFrom]
  simp

theorem getBlock_length (s : State) (x : Nibble) : (s.getBlock x).length = x.toNat + 1 := by
  have := x.isLt
  simp [State.getBlock]; omega

/-- Byte `k` of the block `V[0]` to `V[x]` is `V[k]`. -/
theorem getBlock_getD (s : State) (x : Nibble) (k : Nat) (hk : k ≤ x.toNat) :
    (s.getBlock x).getD k 0#8 = s.getV (BitVec.ofNat 4 k) := by
  have hx := x.isLt
  have hm : k % 16 = k := Nat.mod_eq_of_lt (by omega)
  have h16 : k < 16 := by omega
  simp [State.getBlock, State.getV, hm, Nat.lt_succ_of_le hk, h16]

/-! ### A result and its flag (R148) -/

theorem setResultAndFlag_vf (s : State) (r : Byte) (f : Bool) :
    s.setResultAndFlag vf r f = s.setV vf (aliasedVf r (flagByte f)) := by
  simp [State.setResultAndFlag]

/-- Every register after a result and its flag are written. -/
theorem getV_setResultAndFlag (s : State) (x : Nibble) (r : Byte) (f : Bool) (q : Nibble) :
    (s.setResultAndFlag x r f).getV q =
      if q = vf then (if x = vf then aliasedVf r (flagByte f) else flagByte f)
      else if q = x then r else s.getV q := by
  unfold State.setResultAndFlag
  split
  · next h => subst h; rw [getV_setV]; split <;> rfl
  · rw [getV_setV, getV_setV]

/-- Nothing but `v` changes when a result and its flag are written. -/
theorem setResultAndFlag_eq (s : State) (x : Nibble) (r : Byte) (f : Bool) :
    s.setResultAndFlag x r f = { s with v := (s.setResultAndFlag x r f).v } := by
  unfold State.setResultAndFlag
  split <;> rfl

theorem aliasedVf_cases (r f : Byte) : aliasedVf r f = f ∨ aliasedVf r f = r := by
  unfold aliasedVf
  split
  · exact .inl rfl
  · exact .inr rfl

/-! ### The call stack (R30, R31) -/

theorem push_eq (w : Word) (s : State) :
    push w s =
      if s.stack.length < 16 then .ok { s with stack := w :: s.stack }
      else .error (.memoryOutOfRange .stackFull) := rfl

theorem pop_nil {s : State} (h : s.stack = []) : pop s = .error (.stackUnderflow s.pc) := by
  simp [pop, h]

theorem pop_cons {s : State} {w : Word} {rest : List Word} (h : s.stack = w :: rest) :
    pop s = .ok (w, { s with stack := rest }) := by
  simp [pop, h]

/-! ### The key port (R46, R47) -/

theorem mem_pressedKeys (keys : BitVec 16) (k : Nibble) :
    k ∈ pressedKeys keys ↔ isPressed keys k = true := by
  simp only [pressedKeys, List.mem_filter, List.mem_map, List.mem_range]
  refine ⟨fun h => h.2, fun h => ⟨⟨k.toNat, k.isLt, ?_⟩, h⟩⟩
  simp

/-- The two facts of R47: `none` only with no key pressed, otherwise a pressed key. -/
theorem firstPressed_spec (keys : BitVec 16) :
    match firstPressed keys with
    | none => ∀ k, isPressed keys k = false
    | some k => isPressed keys k = true := by
  have hm := mem_pressedKeys keys
  unfold firstPressed
  rcases hp : pressedKeys keys with _ | ⟨k, _ | ⟨k', ks⟩⟩
  · intro k
    have := hm k
    rw [hp] at this
    simpa using this
  · exact (hm k).mp (by simp [hp])
  · refine (hm _).mp ?_
    rw [hp]
    have hlt : Config.keyOracle keys % (k :: k' :: ks).length < (k :: k' :: ks).length :=
      Nat.mod_lt _ (by simp)
    rw [List.getD_eq_getElem _ _ hlt]
    exact List.getElem_mem hlt

theorem isPressed_pressKey (keys : BitVec 16) (k q : Nibble) :
    isPressed (pressKey keys k) q = (isPressed keys q || q == k) := by
  revert k q
  have h : ∀ k q : Nibble, isPressed (1#16 <<< k.toNat) q = (q == k) := by decide
  intro k q
  rw [← h k q]
  simp [isPressed, pressKey]

theorem isPressed_releaseKey (keys : BitVec 16) (k q : Nibble) :
    isPressed (releaseKey keys k) q = (isPressed keys q && q != k) := by
  have h : ∀ k q : Nibble, isPressed (~~~(1#16 <<< k.toNat)) q = (q != k) := by decide
  rw [← h k q]
  simp only [isPressed, releaseKey, BitVec.getLsbD_and]

end Sys2Proof.Machine
end

