-- ==== Sys2Proof/Laws/Exec.lean ====
section
/-!
SUPPORT. What each shared operation of the execute stage can do, said once: a meaning's proof cites
these and does not unfold the operation.
-/

namespace Sys2Proof.Machine

/-- Every execute stage answers a next state: the one it computes, or the faulted one (R306). -/
theorem outcome_next (s : State) (r : Except FaultCause State) :
    outcome s r = .next (match r with | .ok t => t | .error c => raise c s) := by
  cases r <;> rfl

@[simp] theorem outcome_ok (s t : State) : outcome s (.ok t) = .next t := rfl

@[simp] theorem outcome_error (s : State) (c : FaultCause) :
    outcome s (.error c) = .next (raise c s) := rfl

/-- A conditional skip changes `pc` and nothing else (R143). -/
theorem skipWhen_eq (b : Bool) (s : State) :
    skipWhen b s = .next { s with pc := if b then s.pc + 4#16 else s.pc + 2#16 } := by
  cases b <;> rfl

/-- A result without a flag changes `V[x]` and `pc`. -/
theorem writeResult_eq (x : Nibble) (r : Byte) (s : State) :
    writeResult x r s = .next ((s.setV x r).advance .normal) := rfl

/-- A result with its flag changes `V[x]`, `VF` and `pc`. -/
theorem writeResultAndFlag_eq (x : Nibble) (r : Byte) (f : Bool) (s : State) :
    writeResultAndFlag x r f s = .next ((s.setResultAndFlag x r f).advance .normal) := rfl

/-- A store through `I` writes the whole block, or raises `MemoryOutOfRange` at the first invalid
address. -/
theorem storeThroughI_eq (bs : List Byte) (s : State) :
    storeThroughI bs s =
      if bs = [] ∨ s.i.toNat + bs.length ≤ 4096 then
        .next ({ s with mem := s.mem.writeAll s.i.toNat bs }.advance .normal)
      else .next (raise (.memoryOutOfRange (.addr (max s.i.toNat 4096))) s) := by
  simp only [storeThroughI, blockAddress, storeBytes_eq]
  by_cases h : bs = [] ∨ s.i.toNat + bs.length ≤ 4096
  · rw [if_pos h, if_pos h]; rfl
  · rw [if_neg h, if_neg h]; rfl

theorem keyOperand_eq (k : Byte) :
    keyOperand k = if k.toNat ≤ 15 then .ok (k.setWidth 4) else .error (.invalidKeyIndex k) := rfl

theorem glyphOperand_eq (v : Byte) :
    glyphOperand v =
      if v.toNat ≤ 15 then .ok (BitVec.ofNat 16 (5 * v.toNat)) else .error (.invalidFontIndex v) :=
  rfl

/-- A key skip changes `pc` alone, or raises `InvalidKeyIndex` (R280, R281). -/
theorem skipOnKey_eq (x : Nibble) (wanted : Bool) (s : State) :
    skipOnKey x wanted s =
      if (s.getV x).toNat ≤ 15 then
        .next (s.advance (skipIf (isPressed s.keys ((s.getV x).setWidth 4) == wanted)))
      else .next (raise (.invalidKeyIndex (s.getV x)) s) := by
  simp only [skipOnKey, keyOperand_eq]
  by_cases h : (s.getV x).toNat ≤ 15
  · rw [if_pos h, if_pos h]; rfl
  · rw [if_neg h, if_neg h]; rfl

/-! ### The meanings that can raise a fault, each as one condition -/

theorem execCall_eq (nnn : Addr12) (s : State) :
    execCall nnn s =
      if s.stack.length < 16 then
        .next { s with stack := (s.pc + 2#16) :: s.stack, pc := addressOperand nnn }
      else .next (raise (.memoryOutOfRange .stackFull) s) := by
  simp only [execCall, push_eq]
  by_cases h : s.stack.length < 16
  · rw [if_pos h, if_pos h]; rfl
  · rw [if_neg h, if_neg h]; rfl

theorem execRet_nil {s : State} (h : s.stack = []) :
    execRet s = .next (raise (.stackUnderflow s.pc) s) := by
  simp only [execRet, pop_nil h, outcome_error]

theorem execRet_cons {s : State} {w : Word} {rest : List Word} (h : s.stack = w :: rest) :
    execRet s = .next { s with stack := rest, pc := w } := by
  simp only [execRet, pop_cons h]; rfl

theorem execFontChar_eq (x : Nibble) (s : State) :
    execFontChar x s =
      if (s.getV x).toNat ≤ 15 then
        .next ({ s with i := BitVec.ofNat 16 (5 * (s.getV x).toNat) }.advance .normal)
      else .next (raise (.invalidFontIndex (s.getV x)) s) := by
  simp only [execFontChar, glyphOperand_eq]
  by_cases h : (s.getV x).toNat ≤ 15
  · rw [if_pos h, if_pos h]; rfl
  · rw [if_neg h, if_neg h]; rfl

theorem execBcd_eq (x : Nibble) (s : State) :
    execBcd x s =
      if s.i.toNat + 3 ≤ 4096 then
        .next ({ s with mem := s.mem.writeAll s.i.toNat (bcdDigits (s.getV x)) }.advance .normal)
      else .next (raise (.memoryOutOfRange (.addr (max s.i.toNat 4096))) s) := by
  simp only [execBcd, storeThroughI_eq]
  simp [bcdDigits]

theorem execDump_eq (x : Nibble) (s : State) :
    execDump x s =
      if s.i.toNat + (x.toNat + 1) ≤ 4096 then
        .next ({ s with mem := s.mem.writeAll s.i.toNat (s.getBlock x) }.advance .normal)
      else .next (raise (.memoryOutOfRange (.addr (max s.i.toNat 4096))) s) := by
  have hl := getBlock_length s x
  have hn : s.getBlock x ≠ [] := fun h => by rw [h] at hl; simp at hl
  simp only [execDump, storeThroughI_eq, hl, hn, false_or]

/-- The bytes a block read at `I` answers. -/
def blockBytes (s : State) (n : Nat) : List Byte :=
  (List.range n).map (fun k => s.mem.read (s.i.toNat + k))

theorem blockBytes_length (s : State) (n : Nat) : (blockBytes s n).length = n := by
  simp [blockBytes]

theorem blockBytes_getD (s : State) (n k : Nat) (h : k < n) :
    (blockBytes s n).getD k 0#8 = s.mem.read (s.i.toNat + k) := by
  rw [List.getD_eq_getElem _ _ (by simpa [blockBytes] using h)]
  simp [blockBytes]

theorem execLoad_eq (x : Nibble) (s : State) :
    execLoad x s =
      if s.i.toNat + (x.toNat + 1) ≤ 4096 then
        .next ((s.setBlock (blockBytes s (x.toNat + 1))).advance .normal)
      else .next (raise (.memoryOutOfRange (.addr (max s.i.toNat 4096))) s) := by
  simp only [execLoad, loadBytes_eq, blockAddress]
  by_cases h : s.i.toNat + (x.toNat + 1) ≤ 4096
  · rw [if_pos h, if_pos (.inr h)]; rfl
  · rw [if_neg h, if_neg (by omega)]; rfl

/-- The framebuffer and the collision after a sprite is drawn. -/
def drawnCanvas (x y n : Nibble) (s : State) : Canvas :=
  drawRows (s.getV x).toNat (s.getV y).toNat (blockBytes s n.toNat) (s.fb, false)

theorem execDraw_eq (x y n : Nibble) (s : State) :
    execDraw x y n s =
      if n.toNat = 0 ∨ s.i.toNat + n.toNat ≤ 4096 then
        .next (({ s with fb := (drawnCanvas x y n s).1 }.setV vf
          (flagByte (drawnCanvas x y n s).2)).advance .normal)
      else .next (raise (.memoryOutOfRange (.addr (max s.i.toNat 4096))) s) := by
  simp only [execDraw, loadBytes_eq, blockAddress]
  by_cases h : n.toNat = 0 ∨ s.i.toNat + n.toNat ≤ 4096
  · rw [if_pos h, if_pos h]; rfl
  · rw [if_neg h, if_neg h]; rfl

theorem execAwaitInput_none {s : State} (h : firstPressed s.keys = none) (x : Nibble) :
    execAwaitInput x s = .next s := by
  simp only [execAwaitInput, h]; rfl

theorem execAwaitInput_some {s : State} {k : Nibble} (h : firstPressed s.keys = some k)
    (x : Nibble) :
    execAwaitInput x s = .next ((s.setV x (k.setWidth 8)).advance .normal) := by
  simp only [execAwaitInput, h]; rfl

/-- Every instruction from every state either raises a fault or leaves the latch, the key port and
the schedule as they were (R306, R308). -/
theorem exec_raises_or_keeps (i : Instr) (s : State) :
    (∃ c, exec i s = .next (raise c s)) ∨
    (∃ t, exec i s = .next t ∧ t.latch = s.latch ∧ t.keys = s.keys ∧ t.schedule = s.schedule) := by
  have hset : ∀ (x : Nibble) (r : Byte) (f : Bool),
      (s.setResultAndFlag x r f).latch = s.latch ∧ (s.setResultAndFlag x r f).keys = s.keys ∧
        (s.setResultAndFlag x r f).schedule = s.schedule := fun x r f => by
    rw [setResultAndFlag_eq]; exact ⟨rfl, rfl, rfl⟩
  cases i <;> simp only [exec]
  case ret =>
    rcases h : s.stack with _ | ⟨w, rest⟩
    · exact .inl ⟨_, execRet_nil h⟩
    · exact .inr ⟨_, execRet_cons h, rfl, rfl, rfl⟩
  case awaitInput x =>
    rcases h : firstPressed s.keys with _ | k
    · exact .inr ⟨_, execAwaitInput_none h x, rfl, rfl, rfl⟩
    · exact .inr ⟨_, execAwaitInput_some h x, rfl, rfl, rfl⟩
  case call => rw [execCall_eq]; split; exacts [.inr ⟨_, rfl, rfl, rfl, rfl⟩, .inl ⟨_, rfl⟩]
  case fontChar => rw [execFontChar_eq]; split; exacts [.inr ⟨_, rfl, rfl, rfl, rfl⟩, .inl ⟨_, rfl⟩]
  case bcd => rw [execBcd_eq]; split; exacts [.inr ⟨_, rfl, rfl, rfl, rfl⟩, .inl ⟨_, rfl⟩]
  case dump => rw [execDump_eq]; split; exacts [.inr ⟨_, rfl, rfl, rfl, rfl⟩, .inl ⟨_, rfl⟩]
  case load => rw [execLoad_eq]; split; exacts [.inr ⟨_, rfl, rfl, rfl, rfl⟩, .inl ⟨_, rfl⟩]
  case draw => rw [execDraw_eq]; split; exacts [.inr ⟨_, rfl, rfl, rfl, rfl⟩, .inl ⟨_, rfl⟩]
  case skipKeyPressed =>
    rw [execSkipKeyPressed, skipOnKey_eq]
    split; exacts [.inr ⟨_, rfl, rfl, rfl, rfl⟩, .inl ⟨_, rfl⟩]
  case skipKeyNotPressed =>
    rw [execSkipKeyNotPressed, skipOnKey_eq]
    split; exacts [.inr ⟨_, rfl, rfl, rfl, rfl⟩, .inl ⟨_, rfl⟩]
  case addReg | sub | shiftRight | subReverse | shiftLeft => exact .inr ⟨_, rfl, hset _ _ _⟩
  all_goals exact .inr ⟨_, rfl, rfl, rfl, rfl⟩

end Sys2Proof.Machine
end

