-- ==== Sys2Proof/Laws/Framebuffer.lean ====
section
/-!
SUPPORT. The framebuffer port: get after set and after clear, and what one column of a sprite does.
-/

namespace Sys2Proof.Machine

/-- A pixel read after a pixel is set (R48). -/
theorem get_set (fb : Framebuffer) (x q : Fin 64) (y p : Fin 32) (b : Bool) :
    (fb.set x y b).get q p = if q = x ∧ p = y then b else fb.get q p := by
  simp only [Framebuffer.get, Framebuffer.set, Fin.getElem_fin, Vector.getElem_set]
  by_cases hx : x.val = q.val
  · have hx' : q = x := Fin.ext hx.symm
    subst hx'
    by_cases hy : y.val = p.val
    · have hy' : p = y := Fin.ext hy.symm
      simp [hy']
    · have hy' : p ≠ y := fun e => hy (by rw [e])
      simp [hy, hy']
  · have hx' : q ≠ x := fun e => hx (by rw [e])
    simp [hx, hx']

/-- Every pixel of a cleared framebuffer is 0 (R240). -/
@[simp] theorem get_clear (x : Fin 64) (y : Fin 32) : Framebuffer.clear.get x y = false := by
  simp [Framebuffer.get, Framebuffer.clear]

/-- Two framebuffers with the same pixels are the same. -/
theorem framebuffer_ext {fb gb : Framebuffer} (h : ∀ x y, fb.get x y = gb.get x y) : fb = gb := by
  apply Vector.ext
  intro i hi
  apply Vector.ext
  intro j hj
  exact h ⟨i, hi⟩ ⟨j, hj⟩

/-- What one column of a sprite row leaves at every pixel: a set sprite bit flips its pixel (R242).
-/
theorem drawColumn_get (row : Byte) (x0 : Nat) (y : Fin 32) (k : Canvas) (c : Nat)
    (q : Fin 64) (p : Fin 32) :
    (drawColumn row x0 y k c).1.get q p =
      (k.1.get q p ^^ (spriteBit row c && decide (q = Fin.ofNat 64 (x0 + c) ∧ p = y))) := by
  unfold drawColumn
  split
  · next h =>
    rw [get_set, h]
    by_cases hq : q = Fin.ofNat 64 (x0 + c) ∧ p = y
    · rw [if_pos hq, hq.1, hq.2]; simp
    · rw [if_neg hq, decide_eq_false hq]; simp
  · next h => simp [h]

/-- When one column of a sprite row collides: a set sprite bit on a set pixel (R242). -/
theorem drawColumn_collision (row : Byte) (x0 : Nat) (y : Fin 32) (k : Canvas) (c : Nat) :
    (drawColumn row x0 y k c).2 =
      (k.2 || (spriteBit row c && k.1.get (Fin.ofNat 64 (x0 + c)) y)) := by
  unfold drawColumn
  split
  · next h => simp [h]
  · next h => simp [h]

end Sys2Proof.Machine
end

