-- ==== Sys2Proof/Laws/PerInstr.lean ====
section
/-!
SUPPORT. A law per instruction, about its word: the fixed fields of its row of spec/30_encoding.md
R94 stand in the encoder's word.
-/

namespace Sys2Proof.Laws

/-- The fixed fields of a row of the opcode map: `C`, and `N` or `NN` where they select (R94). -/
structure RowFields where
  c : Nibble
  n : Option Nibble
  nn : Option Byte
  deriving DecidableEq, Repr

/-- The row of an instruction (R94, R95 to R100). -/
def rowFields : Instr → RowFields
  | .sys _ => ⟨0x0#4, none, none⟩
  | .clearScreen => ⟨0x0#4, none, some 0xE0#8⟩
  | .ret => ⟨0x0#4, none, some 0xEE#8⟩
  | .jump _ => ⟨0x1#4, none, none⟩
  | .call _ => ⟨0x2#4, none, none⟩
  | .skipEqConst _ _ => ⟨0x3#4, none, none⟩
  | .skipNeConst _ _ => ⟨0x4#4, none, none⟩
  | .skipEqReg _ _ => ⟨0x5#4, some 0x0#4, none⟩
  | .setConst _ _ => ⟨0x6#4, none, none⟩
  | .addConst _ _ => ⟨0x7#4, none, none⟩
  | .setReg _ _ => ⟨0x8#4, some 0x0#4, none⟩
  | .orReg _ _ => ⟨0x8#4, some 0x1#4, none⟩
  | .andReg _ _ => ⟨0x8#4, some 0x2#4, none⟩
  | .xorReg _ _ => ⟨0x8#4, some 0x3#4, none⟩
  | .addReg _ _ => ⟨0x8#4, some 0x4#4, none⟩
  | .sub _ _ => ⟨0x8#4, some 0x5#4, none⟩
  | .shiftRight _ => ⟨0x8#4, some 0x6#4, none⟩
  | .subReverse _ _ => ⟨0x8#4, some 0x7#4, none⟩
  | .shiftLeft _ => ⟨0x8#4, some 0xE#4, none⟩
  | .skipNeReg _ _ => ⟨0x9#4, some 0x0#4, none⟩
  | .setI _ => ⟨0xA#4, none, none⟩
  | .jumpOffset _ => ⟨0xB#4, none, none⟩
  | .random _ _ => ⟨0xC#4, none, none⟩
  | .draw _ _ _ => ⟨0xD#4, none, none⟩
  | .skipKeyPressed _ => ⟨0xE#4, none, some 0x9E#8⟩
  | .skipKeyNotPressed _ => ⟨0xE#4, none, some 0xA1#8⟩
  | .getDelay _ => ⟨0xF#4, none, some 0x07#8⟩
  | .awaitInput _ => ⟨0xF#4, none, some 0x0A#8⟩
  | .setDelay _ => ⟨0xF#4, none, some 0x15#8⟩
  | .setSound _ => ⟨0xF#4, none, some 0x18#8⟩
  | .addI _ => ⟨0xF#4, none, some 0x1E#8⟩
  | .fontChar _ => ⟨0xF#4, none, some 0x29#8⟩
  | .bcd _ => ⟨0xF#4, none, some 0x33#8⟩
  | .dump _ => ⟨0xF#4, none, some 0x55#8⟩
  | .load _ => ⟨0xF#4, none, some 0x65#8⟩

end Sys2Proof.Laws

namespace Sys2Proof.Laws.TableRow

/-- The encoder's word of `i` has the fixed fields of `i`'s row. -/
def Statement (i : Instr) : Prop :=
  fieldC (encode i) = (rowFields i).c ∧
    (∀ n ∈ (rowFields i).n, fieldN (encode i) = n) ∧
    (∀ b ∈ (rowFields i).nn, fieldNN (encode i) = b)

theorem sys (nnn : Addr12) : Statement (.sys nnn) := by
  simp [Statement, rowFields, encode]

theorem clearScreen : Statement (.clearScreen) := by
  simp [Statement, rowFields]
  decide

theorem ret : Statement (.ret) := by
  simp [Statement, rowFields]
  decide

theorem jump (nnn : Addr12) : Statement (.jump nnn) := by
  simp [Statement, rowFields, encode]

theorem call (nnn : Addr12) : Statement (.call nnn) := by
  simp [Statement, rowFields, encode]

theorem skipEqConst (x : Nibble) (nn : Byte) : Statement (.skipEqConst x nn) := by
  simp [Statement, rowFields, encode]

theorem skipNeConst (x : Nibble) (nn : Byte) : Statement (.skipNeConst x nn) := by
  simp [Statement, rowFields, encode]

theorem skipEqReg (x y : Nibble) : Statement (.skipEqReg x y) := by
  simp [Statement, rowFields, encode]

theorem setConst (x : Nibble) (nn : Byte) : Statement (.setConst x nn) := by
  simp [Statement, rowFields, encode]

theorem addConst (x : Nibble) (nn : Byte) : Statement (.addConst x nn) := by
  simp [Statement, rowFields, encode]

theorem setReg (x y : Nibble) : Statement (.setReg x y) := by
  simp [Statement, rowFields, encode]

theorem orReg (x y : Nibble) : Statement (.orReg x y) := by
  simp [Statement, rowFields, encode]

theorem andReg (x y : Nibble) : Statement (.andReg x y) := by
  simp [Statement, rowFields, encode]

theorem xorReg (x y : Nibble) : Statement (.xorReg x y) := by
  simp [Statement, rowFields, encode]

theorem addReg (x y : Nibble) : Statement (.addReg x y) := by
  simp [Statement, rowFields, encode]

theorem sub (x y : Nibble) : Statement (.sub x y) := by
  simp [Statement, rowFields, encode]

theorem shiftRight (x : Nibble) : Statement (.shiftRight x) := by
  simp [Statement, rowFields, encode]

theorem subReverse (x y : Nibble) : Statement (.subReverse x y) := by
  simp [Statement, rowFields, encode]

theorem shiftLeft (x : Nibble) : Statement (.shiftLeft x) := by
  simp [Statement, rowFields, encode]

theorem skipNeReg (x y : Nibble) : Statement (.skipNeReg x y) := by
  simp [Statement, rowFields, encode]

theorem setI (nnn : Addr12) : Statement (.setI nnn) := by
  simp [Statement, rowFields, encode]

theorem jumpOffset (nnn : Addr12) : Statement (.jumpOffset nnn) := by
  simp [Statement, rowFields, encode]

theorem random (x : Nibble) (nn : Byte) : Statement (.random x nn) := by
  simp [Statement, rowFields, encode]

theorem draw (x y n : Nibble) : Statement (.draw x y n) := by
  simp [Statement, rowFields, encode]

theorem skipKeyPressed (x : Nibble) : Statement (.skipKeyPressed x) := by
  simp [Statement, rowFields, encode]

theorem skipKeyNotPressed (x : Nibble) : Statement (.skipKeyNotPressed x) := by
  simp [Statement, rowFields, encode]

theorem getDelay (x : Nibble) : Statement (.getDelay x) := by
  simp [Statement, rowFields, encode]

theorem awaitInput (x : Nibble) : Statement (.awaitInput x) := by
  simp [Statement, rowFields, encode]

theorem setDelay (x : Nibble) : Statement (.setDelay x) := by
  simp [Statement, rowFields, encode]

theorem setSound (x : Nibble) : Statement (.setSound x) := by
  simp [Statement, rowFields, encode]

theorem addI (x : Nibble) : Statement (.addI x) := by
  simp [Statement, rowFields, encode]

theorem fontChar (x : Nibble) : Statement (.fontChar x) := by
  simp [Statement, rowFields, encode]

theorem bcd (x : Nibble) : Statement (.bcd x) := by
  simp [Statement, rowFields, encode]

theorem dump (x : Nibble) : Statement (.dump x) := by
  simp [Statement, rowFields, encode]

theorem load (x : Nibble) : Statement (.load x) := by
  simp [Statement, rowFields, encode]

end Sys2Proof.Laws.TableRow
end

