-- ==== Sys2Proof/Laws/Step.lean ====
section
/-!
SUPPORT. What a fetch, a cycle, a tick, a load and a step can do.
-/

namespace Sys2Proof.Machine

/-- A fetch answers the big-endian word at `pc`, or the first invalid address (R64, R141). -/
theorem fetch_eq (s : State) :
    fetch s =
      if s.pc.toNat ≤ 4094 then
        .ok (wordOfBytes (s.mem.read s.pc.toNat) (s.mem.read (s.pc.toNat + 1)))
      else .error (.memoryOutOfRange (.addr (max s.pc.toNat 4096))) := by
  simp only [fetch, memRead_eq]
  by_cases h : s.pc.toNat ≤ 4094
  · rw [if_pos h, if_pos (show s.pc.toNat < 4096 by omega),
      if_pos (show s.pc.toNat + 1 < 4096 by omega)]
  · by_cases h' : s.pc.toNat < 4096
    · rw [if_neg h, if_pos h', if_neg (show ¬s.pc.toNat + 1 < 4096 by omega)]
      have e : s.pc.toNat + 1 = max s.pc.toNat 4096 := by omega
      simp [e]
    · rw [if_neg h, if_neg h']
      have e : s.pc.toNat = max s.pc.toNat 4096 := by omega
      simp [← e]

/-- What a cycle can do: refused on a stopped core, a fault in fetch or decode, or the execute stage
of the instruction at `pc` (R140, R151). -/
theorem cycleStep_cases (s : State) :
    (∃ c, s.latch = .faulted c ∧ cycleStep s = .fault (.coreStopped c)) ∨
    (s.latch = .running ∧ ∃ c, fetchInstr s = .error c ∧ cycleStep s = .next (raise c s)) ∨
    (s.latch = .running ∧ ∃ i, fetchInstr s = .ok i ∧ cycleStep s = exec i s) := by
  unfold cycleStep
  rcases hl : s.latch with _ | c
  · right
    rcases hf : fetchInstr s with c | i
    · exact .inl ⟨rfl, c, rfl, rfl⟩
    · exact .inr ⟨rfl, i, rfl, rfl⟩
  · exact .inl ⟨c, rfl, rfl⟩

/-- A fetched and decoded instruction was at a pc of at most 4094 (R141, R149). -/
theorem fetchInstr_ok {s : State} {i : Instr} (h : fetchInstr s = .ok i) :
    s.pc.toNat ≤ 4094 ∧
      decode (wordOfBytes (s.mem.read s.pc.toNat) (s.mem.read (s.pc.toNat + 1))) = .ok i := by
  simp only [fetchInstr, fetch_eq] at h
  by_cases hp : s.pc.toNat ≤ 4094
  · rw [if_pos hp] at h
    refine ⟨hp, ?_⟩
    dsimp only at h
    split at h
    · simp at h
    · next he => rw [he]; simpa using h
  · rw [if_neg hp] at h
    simp at h

/-- The pc, the return addresses and the rest of the state under a tick (R320). -/
theorem tickStep_running {s : State} (h : s.latch = .running) :
    tickStep s = .next { s with dt := tickTimer s.dt, st := tickTimer s.st } := by
  simp [tickStep, h]

theorem tickTimer_toNat (t : Byte) : (tickTimer t).toNat = t.toNat - 1 := by
  unfold tickTimer
  split <;> bv_omega

/-- What a step does: the head of the schedule, or a cycle when there is none (R354). -/
theorem step_cases (s : State) :
    (s.schedule = [] ∧ step s = cycleStep s) ∨
    (∃ a rest, s.schedule = a :: rest ∧ step s = perform a { s with schedule := rest }) := by
  rcases hs : s.schedule with _ | ⟨a, rest⟩
  · left
    refine ⟨rfl, ?_⟩
    have : ({ s with schedule := [] } : State) = s := by rw [← hs]
    simp only [step, performNext, nextAction, hs, List.headD_nil, List.tail_nil, this, perform]
  · exact .inr ⟨a, rest, rfl, by simp [step, performNext, nextAction, hs]⟩

end Sys2Proof.Machine
end

