-- ==== Sys2Proof/Tests/Slice0.lean ====
section
/-!
SUPPORT. Tests of the model, each expected result from spec/95_test_vectors.md (the section is
named) or worked out by hand from the rule named; and, for every obligation with hypotheses, a
state and operands that meet them, at the boundaries of its clauses.
-/

namespace Sys2Proof.Tests

open Sys2Proof Sys2Proof.Machine

/-! ### Helpers -/

/-- The reset state with some general registers and a memory set. -/
def start (vs : List (Nibble × Byte)) (cells : List (Nat × Byte) := []) : State :=
  vs.foldl (fun s p => s.setV p.1 p.2)
    { State.reset with mem := cells.foldl (fun m c => Memory.write m c.1 c.2) [] }

/-- The step of `s` that runs the word `w`. -/
def runs (s : State) (w : Nat) : Host.Outcome State Fault Refusal := step (s.withFetchWord 16 w)

/-- The outcome is a next state in which `p` holds. -/
def Next (o : Host.Outcome State Fault Refusal) (p : State → Bool) : Bool :=
  match o with
  | .next t => p t
  | .fault _ => false
  | .refused _ => false

theorem exists_next {o : Host.Outcome State Fault Refusal} {p : State → Bool}
    (h : Next o p = true) : ∃ t, o = .next t := by
  cases o with
  | next t => exact ⟨t, rfl⟩
  | fault _ => cases h
  | refused _ => cases h

/-- A call stack of `n` entries. -/
def deep (n : Nat) : State := { State.reset with stack := List.replicate n 0x202#16 }

/-- A stopped core. -/
def stopped : State := { State.reset with latch := .faulted (.invalidKeyIndex 0x10#8) }

/-- The reset state with `I` set. -/
def atI (a : Word) : State := { State.reset with i := a }

/-- The reset state with `pc` set. -/
def atPc (a : Word) : State := { State.reset with pc := a }

/-- The reset state with the host's coming actions set. -/
def given (acts : List HostAction) : State := { State.reset with schedule := acts }

/-- The reset state with the keys of a mask pressed. -/
def pressing (ks : BitVec 16) (vs : List (Nibble × Byte) := []) : State :=
  { start vs with keys := ks }

/-! ### Well-formedness: the two SYS words that name other instructions (R95) -/

theorem test_wf_sys_refuses_00E0 : (Instr.sys 0x0E0#12).wellFormed = false := by decide
theorem test_wf_sys_refuses_00EE : (Instr.sys 0x0EE#12).wellFormed = false := by decide
theorem test_wf_sys_accepts_00E1 : (Instr.sys 0x0E1#12).wellFormed = true := by decide

/-! ### Decoding: one word per constructor (95_test_vectors.md 2.1) -/

theorem test_decode_sys : decode 0x0123#16 = .ok (.sys 0x123#12) := by decide
theorem test_decode_sys_zero : decode 0x0000#16 = .ok (.sys 0x000#12) := by decide
theorem test_decode_sys_extension : decode 0x00FD#16 = .ok (.sys 0x0FD#12) := by decide
theorem test_decode_cls : decode 0x00E0#16 = .ok .clearScreen := by decide
theorem test_decode_ret : decode 0x00EE#16 = .ok .ret := by decide
theorem test_decode_jump : decode 0x1ABC#16 = .ok (.jump 0xABC#12) := by decide
theorem test_decode_call : decode 0x2ABC#16 = .ok (.call 0xABC#12) := by decide
theorem test_decode_se_imm : decode 0x3A42#16 = .ok (.skipEqConst 0xA#4 0x42#8) := by decide
theorem test_decode_sne_imm : decode 0x4A42#16 = .ok (.skipNeConst 0xA#4 0x42#8) := by decide
theorem test_decode_se_reg : decode 0x5AB0#16 = .ok (.skipEqReg 0xA#4 0xB#4) := by decide
theorem test_decode_ld_imm : decode 0x6A07#16 = .ok (.setConst 0xA#4 0x07#8) := by decide
theorem test_decode_add_imm : decode 0x7AFF#16 = .ok (.addConst 0xA#4 0xFF#8) := by decide
theorem test_decode_ld_reg : decode 0x8AB0#16 = .ok (.setReg 0xA#4 0xB#4) := by decide
theorem test_decode_or : decode 0x8AB1#16 = .ok (.orReg 0xA#4 0xB#4) := by decide
theorem test_decode_and : decode 0x8AB2#16 = .ok (.andReg 0xA#4 0xB#4) := by decide
theorem test_decode_xor : decode 0x8AB3#16 = .ok (.xorReg 0xA#4 0xB#4) := by decide
theorem test_decode_add_reg : decode 0x8AB4#16 = .ok (.addReg 0xA#4 0xB#4) := by decide
theorem test_decode_sub : decode 0x8AB5#16 = .ok (.sub 0xA#4 0xB#4) := by decide
theorem test_decode_shr : decode 0x8AB6#16 = .ok (.shiftRight 0xA#4) := by decide
theorem test_decode_subn : decode 0x8AB7#16 = .ok (.subReverse 0xA#4 0xB#4) := by decide
theorem test_decode_shl : decode 0x8ABE#16 = .ok (.shiftLeft 0xA#4) := by decide
theorem test_decode_sne_reg : decode 0x9AB0#16 = .ok (.skipNeReg 0xA#4 0xB#4) := by decide
theorem test_decode_ld_i : decode 0xA2F0#16 = .ok (.setI 0x2F0#12) := by decide
theorem test_decode_jp_v0 : decode 0xB123#16 = .ok (.jumpOffset 0x123#12) := by decide
theorem test_decode_rnd : decode 0xCA0F#16 = .ok (.random 0xA#4 0x0F#8) := by decide
theorem test_decode_drw : decode 0xDAB5#16 = .ok (.draw 0xA#4 0xB#4 0x5#4) := by decide
theorem test_decode_skp : decode 0xEA9E#16 = .ok (.skipKeyPressed 0xA#4) := by decide
theorem test_decode_sknp : decode 0xEAA1#16 = .ok (.skipKeyNotPressed 0xA#4) := by decide
theorem test_decode_ld_vx_dt : decode 0xFA07#16 = .ok (.getDelay 0xA#4) := by decide
theorem test_decode_ld_vx_k : decode 0xFA0A#16 = .ok (.awaitInput 0xA#4) := by decide
theorem test_decode_ld_dt_vx : decode 0xFA15#16 = .ok (.setDelay 0xA#4) := by decide
theorem test_decode_ld_st_vx : decode 0xFA18#16 = .ok (.setSound 0xA#4) := by decide
theorem test_decode_add_i_vx : decode 0xFA1E#16 = .ok (.addI 0xA#4) := by decide
theorem test_decode_ld_f_vx : decode 0xFA29#16 = .ok (.fontChar 0xA#4) := by decide
theorem test_decode_ld_b_vx : decode 0xFA33#16 = .ok (.bcd 0xA#4) := by decide
theorem test_decode_ld_mem_vx : decode 0xFA55#16 = .ok (.dump 0xA#4) := by decide
theorem test_decode_ld_vx_mem : decode 0xFA65#16 = .ok (.load 0xA#4) := by decide

/-! Words written out bit by bit from the patterns of R94, one per family of the opcode table. -/

/-- `3XNN`: C = 0011, X = 1010, NN = 01000010. -/
theorem test_bits_control : decode 0b0011101001000010#16 = .ok (.skipEqConst 0xA#4 0x42#8) := by
  decide
/-- `8XY5`: C = 1000, X = 1010, Y = 1011, N = 0101. -/
theorem test_bits_arithmetic : decode 0b1000101010110101#16 = .ok (.sub 0xA#4 0xB#4) := by decide
/-- `FX55`: C = 1111, X = 1010, NN = 01010101. -/
theorem test_bits_memory : decode 0b1111101001010101#16 = .ok (.dump 0xA#4) := by decide
/-- `DXYN`: C = 1101, X = 1010, Y = 1011, N = 0101. -/
theorem test_bits_drawing : decode 0b1101101010110101#16 = .ok (.draw 0xA#4 0xB#4 0x5#4) := by
  decide
/-- `FX15`: C = 1111, X = 1010, NN = 00010101. -/
theorem test_bits_timers : decode 0b1111101000010101#16 = .ok (.setDelay 0xA#4) := by decide
/-- `EXA1`: C = 1110, X = 1010, NN = 10100001. -/
theorem test_bits_input : decode 0b1110101010100001#16 = .ok (.skipKeyNotPressed 0xA#4) := by
  decide

/-- The illegal words of 95_test_vectors.md 2.1. -/
theorem test_decode_illegal :
    [0x5121#16, 0x9AB1#16, 0x8128#16, 0x812F#16, 0xE19F#16, 0xE100#16, 0xF100#16, 0xF130#16,
      0xFFFF#16].all (fun w => decode w == .error (.unknownOpcode w)) = true := by decide

/-- Bytes: the first is the high one (R64), the rest is left, and one byte is no instruction. -/
theorem test_decode_bytes :
    decodeBytes [0xA2#8, 0xF0#8, 0x12#8] = .ok (.setI 0x2F0#12, [0x12#8]) ∧
      decodeBytes [0xA2#8] = .error .truncated := by decide

/-- The Y field of a shift is dropped (R101), so its encoding has Y = 0. -/
theorem test_encode_shift : encode (.shiftRight 0xA#4) = 0x8A06#16 := by decide

/-! ### One step per instruction (95_test_vectors.md 2.2 to 2.8) -/

theorem test_withFetchWord :
    decodeTableWord 16 0x2ABC = some (.call 0xABC#12) ∧
      Next (runs State.reset 0x2ABC) (fun t => t.pc == 0xABC#16) = true := by decide

/-- 2.2: SYS. -/
theorem test_sys : Next (runs State.reset 0x0123) (fun t => t.pc == 0x202#16) = true := by
  decide

/-- 2.2: an odd pc is legal; the word at 0x203 is 6007. -/
theorem test_odd_pc :
    Next (step { start [] [(0x203, 0x60#8), (0x204, 0x07#8)] with pc := 0x203#16 })
      (fun t => t.getV 0#4 == 0x07#8 && t.pc == 0x205#16) = true := by decide

/-- 2.2: the fetch of the second byte at 0x1000 faults. -/
theorem test_fetch_fault :
    Next (step (atPc 0xFFF#16))
      (fun t => t.latch == .faulted (.memoryOutOfRange (.addr 0x1000))) = true := by decide

/-- 2.6: CLS. -/
theorem test_cls :
    Next (runs { State.reset with fb := State.reset.fb.set 3 4 true } 0x00E0)
      (fun t => t.fb.get 3 4 == false && t.pc == 0x202#16) = true := by decide

/-- 2.3: RET. -/
theorem test_ret :
    Next (runs { State.reset with pc := 0x300#16, stack := [0x202#16] } 0x00EE)
      (fun t => t.pc == 0x202#16 && t.stack == []) = true := by decide

/-- P7: RET with an empty stack. -/
theorem test_ret_empty :
    Next (runs State.reset 0x00EE)
      (fun t => t.latch == .faulted (.stackUnderflow 0x200#16)) = true := by decide

/-- 2.3: JP. -/
theorem test_jump : Next (runs State.reset 0x1234) (fun t => t.pc == 0x234#16) = true := by
  decide

/-- 2.3: CALL. -/
theorem test_call :
    Next (runs State.reset 0x2300)
      (fun t => t.pc == 0x300#16 && t.stack == [0x202#16]) = true := by decide

/-- 2.3: the 17th CALL. -/
theorem test_call_full :
    Next (runs (deep 16) 0x2200)
      (fun t => t.latch == .faulted (.memoryOutOfRange .stackFull)) = true := by decide

/-- 2.3: SE Vx, nn, taken and not taken. -/
theorem test_se_imm :
    Next (runs (start [(1, 0x12#8)]) 0x3112) (fun t => t.pc == 0x204#16) = true ∧
      Next (runs (start [(1, 0x12#8)]) 0x3113) (fun t => t.pc == 0x202#16) = true := by
  decide

/-- 2.3: SNE Vx, nn. -/
theorem test_sne_imm :
    Next (runs (start [(1, 0x12#8)]) 0x4112) (fun t => t.pc == 0x202#16) = true ∧
      Next (runs (start [(1, 0x12#8)]) 0x4113) (fun t => t.pc == 0x204#16) = true := by
  decide

/-- 2.3: SE Vx, Vy; VF is compared as data. -/
theorem test_se_reg :
    Next (runs (start [(0xF, 0x01#8), (1, 0x01#8)]) 0x5F10) (fun t => t.pc == 0x204#16) = true ∧
      Next (runs (start [(1, 0x40#8), (2, 0x41#8)]) 0x5120) (fun t => t.pc == 0x202#16) = true := by
  decide

/-- 2.3: SNE Vx, Vy. -/
theorem test_sne_reg :
    Next (runs (start [(1, 0x40#8), (2, 0x40#8)]) 0x9120) (fun t => t.pc == 0x202#16) = true ∧
      Next (runs (start [(1, 0x40#8), (2, 0x41#8)]) 0x9120) (fun t => t.pc == 0x204#16) = true := by
  decide

/-- 2.3: JP V0 does not wrap. -/
theorem test_jp_v0 :
    Next (runs (start [(0, 0xFF#8)]) 0xBFFF) (fun t => t.pc == 0x10FE#16) = true := by
  decide

/-- 2.4: LD Vx, nn writes VF as data. -/
theorem test_ld_imm :
    Next (runs (start [(0xF, 0x05#8)]) 0x6F00) (fun t => t.getV 0xF#4 == 0x00#8) = true := by
  decide

/-- 2.4: ADD Vx, nn wraps and sets no flag. -/
theorem test_add_imm :
    Next (runs (start [(1, 0xFF#8), (0xF, 0x05#8)]) 0x7101)
      (fun t => t.getV 1#4 == 0x00#8 && t.getV 0xF#4 == 0x05#8) = true := by decide

/-- 2.4: LD Vx, Vy. -/
theorem test_ld_reg :
    Next (runs (start [(2, 0x5A#8)]) 0x8120) (fun t => t.getV 1#4 == 0x5A#8) = true := by
  decide

/-- 2.4: OR leaves VF. -/
theorem test_or :
    Next (runs (start [(1, 0xF0#8), (2, 0x3C#8), (0xF, 0x07#8)]) 0x8121)
      (fun t => t.getV 1#4 == 0xFC#8 && t.getV 0xF#4 == 0x07#8) = true := by decide

/-- 2.4: AND leaves VF. -/
theorem test_and :
    Next (runs (start [(1, 0xF0#8), (2, 0x3C#8), (0xF, 0x07#8)]) 0x8122)
      (fun t => t.getV 1#4 == 0x30#8 && t.getV 0xF#4 == 0x07#8) = true := by decide

/-- 2.4: XOR leaves VF. -/
theorem test_xor :
    Next (runs (start [(1, 0xF0#8), (2, 0x3C#8), (0xF, 0x07#8)]) 0x8123)
      (fun t => t.getV 1#4 == 0xCC#8 && t.getV 0xF#4 == 0x07#8) = true := by decide

/-- 2.4: ADD Vx, Vx, with the source also the destination. -/
theorem test_add_reg_same :
    Next (runs (start [(3, 0x90#8)]) 0x8334)
      (fun t => t.getV 3#4 == 0x20#8 && t.getV 0xF#4 == 0x01#8) = true := by decide

/-- 2.4: ADD V1, VF: the second operand is the old VF. -/
theorem test_add_reg_vf :
    Next (runs (start [(1, 0xFF#8), (0xF, 0x01#8)]) 0x81F4)
      (fun t => t.getV 1#4 == 0x00#8 && t.getV 0xF#4 == 0x01#8) = true := by decide

/-- 2.4: SUB with a borrow. -/
theorem test_sub_borrow :
    Next (runs (start [(1, 0x05#8), (2, 0x07#8)]) 0x8125)
      (fun t => t.getV 1#4 == 0xFE#8 && t.getV 0xF#4 == 0x00#8) = true := by decide

/-- 2.4: SUB of equal operands has no borrow. -/
theorem test_sub_equal :
    Next (runs (start [(1, 0x05#8), (2, 0x05#8)]) 0x8125)
      (fun t => t.getV 1#4 == 0x00#8 && t.getV 0xF#4 == 0x01#8) = true := by decide

/-- 2.4: SUBN in both directions. -/
theorem test_subn :
    Next (runs (start [(1, 0x07#8), (2, 0x05#8)]) 0x8127)
        (fun t => t.getV 1#4 == 0xFE#8 && t.getV 0xF#4 == 0x00#8) = true ∧
      Next (runs (start [(1, 0x05#8), (2, 0x07#8)]) 0x8127)
        (fun t => t.getV 1#4 == 0x02#8 && t.getV 0xF#4 == 0x01#8) = true := by decide

/-- 2.4: SHR V1 in the word 8126: V2 is not used. -/
theorem test_shr :
    Next (runs (start [(1, 0x05#8), (2, 0x80#8)]) 0x8126)
      (fun t => t.getV 1#4 == 0x02#8 && t.getV 0xF#4 == 0x01#8) = true := by decide

/-- 2.4: SHL V1. -/
theorem test_shl :
    Next (runs (start [(1, 0x81#8)]) 0x810E)
      (fun t => t.getV 1#4 == 0x02#8 && t.getV 0xF#4 == 0x01#8) = true := by decide

/-- 2.4: SUB VF, VE: 01 when the flag is written last, 0F when the result is. -/
theorem test_sub_vf_alias :
    (∃ t, exec (.sub 0xF#4 0xE#4) (start [(0xF, 0x10#8), (0xE, 0x01#8)]) = .next t ∧
      t.getV 0xF#4 = match Config.vfAliasOrder with
        | .flagWins => 0x01#8
        | .resultWins => 0x0F#8) :=
  ⟨_, rfl, rfl⟩

/-- 2.4: RND masks its draw. -/
theorem test_rnd :
    Next (runs State.reset 0xC100) (fun t => t.draws == 1 && t.pc == 0x202#16) = true := by
  decide

/-- 2.5: LD I, nnn. -/
theorem test_ld_i : Next (runs State.reset 0xA2F0) (fun t => t.i == 0x2F0#16) = true := by
  decide

/-- 2.5: ADD I, Vx wraps at 16 bits and sets no flag. -/
theorem test_add_i :
    Next (runs { start [(2, 0x02#8)] with i := 0xFFFF#16 } 0xF21E)
      (fun t => t.i == 0x0001#16 && t.getV 0xF#4 == 0x00#8) = true := by decide

/-- 2.5: LD F, Vx. -/
theorem test_ld_f :
    Next (runs (start [(3, 0x0F#8)]) 0xF329) (fun t => t.i == 0x4B#16) = true ∧
      Next (runs (start [(3, 0x10#8)]) 0xF329)
        (fun t => t.latch == .faulted (.invalidFontIndex 0x10#8)) = true := by decide

/-- 2.5: LD B, Vx of 123. -/
theorem test_bcd :
    Next (runs { start [(3, 123#8)] with i := 0x300#16 } 0xF333)
      (fun t => t.mem == [(0x200, 0xF3#8), (0x201, 0x33#8), (0x300, 1#8), (0x301, 2#8),
        (0x302, 3#8)]) = true := by decide

/-- 2.5: LD B, Vx at 0xFFE. -/
theorem test_bcd_fault :
    Next (runs { start [(1, 123#8)] with i := 0xFFE#16 } 0xF133)
      (fun t => t.latch == .faulted (.memoryOutOfRange (.addr 0x1000))) = true := by decide

/-- 2.5: LD [I], V2 leaves I. -/
theorem test_dump :
    Next (runs { start [(0, 1#8), (1, 2#8), (2, 3#8)] with i := 0x300#16 } 0xF255)
      (fun t => [t.mem.read 0x300, t.mem.read 0x301, t.mem.read 0x302, t.mem.read 0x303] ==
        [1#8, 2#8, 3#8, 0#8] && t.i == 0x300#16) = true := by decide

/-- 2.5: the font is writable. -/
theorem test_dump_font :
    Next (runs (start [(0, 0x12#8)]) 0xF055)
      (fun t => t.mem.read 0 == 0x12#8 && t.mem.read 1 == 0x90#8) = true := by decide

/-- 2.5: LD V2, [I] leaves V3. -/
theorem test_load :
    Next (runs { start [(3, 9#8)] [(0x300, 1#8), (0x301, 2#8), (0x302, 3#8), (0x303, 4#8)]
          with i := 0x300#16 } 0xF265)
      (fun t => [t.getV 0#4, t.getV 1#4, t.getV 2#4, t.getV 3#4] == [1#8, 2#8, 3#8, 9#8] &&
        t.i == 0x300#16) = true := by decide

/-- 2.5: LD V1, [I] at 0xFFF. -/
theorem test_load_fault :
    Next (runs (atI 0xFFF#16) 0xF165)
      (fun t => t.latch == .faulted (.memoryOutOfRange (.addr 0x1000))) = true := by decide

/-- 2.6: glyph 0 at (0, 0) sets 14 pixels, no collision. -/
theorem test_draw_glyph :
    Next (runs State.reset 0xD015)
      (fun t => (List.finRange 64).map (fun x => ((List.finRange 32).filter (t.fb.get x ·)).length) ==
        [5, 2, 2, 5] ++ List.replicate 60 0 && t.getV 0xF#4 == 0#8) = true := by decide

/-- 2.6: a sprite wraps at the right edge; S9: drawn where a pixel is set, VF = 1. -/
theorem test_draw_wrap_collision :
    Next (runs { start [(0, 0x3E#8), (1, 0x1E#8)] [(0x300, 0xC3#8)] with
          i := 0x300#16, fb := State.reset.fb.set 4 30 true } 0xD011)
      (fun t => t.fb.get 62 30 && t.fb.get 63 30 && !t.fb.get 4 30 && t.fb.get 5 30 &&
        t.getV 0xF#4 == 1#8) = true := by decide

/-- 2.8: SKP and SKNP. -/
theorem test_skp :
    Next (runs (pressing 0x20#16 [(1, 5#8)]) 0xE19E) (fun t => t.pc == 0x204#16) = true ∧
      Next (runs (start [(1, 5#8)]) 0xE19E) (fun t => t.pc == 0x202#16) = true := by
  decide

theorem test_sknp :
    Next (runs (pressing 0x20#16 [(1, 5#8)]) 0xE1A1) (fun t => t.pc == 0x202#16) = true ∧
      Next (runs (start [(1, 5#8)]) 0xE1A1) (fun t => t.pc == 0x204#16) = true := by
  decide

/-- 2.8: a key index of 0x10. -/
theorem test_key_fault :
    Next (runs (start [(1, 0x10#8)]) 0xE1A1)
      (fun t => t.latch == .faulted (.invalidKeyIndex 0x10#8)) = true := by decide

/-- 2.7: LD Vx, DT. -/
theorem test_get_delay :
    Next (runs { State.reset with dt := 0x3C#8 } 0xF107)
      (fun t => t.getV 1#4 == 0x3C#8 && t.dt == 0x3C#8) = true := by decide

/-- 2.8: LD Vx, K waits. -/
theorem test_await_waits :
    Next (runs State.reset 0xF20A) (fun t => t.pc == 0x200#16 && t.getV 2#4 == 0#8) = true := by
  decide

/-- 2.8: LD Vx, K with key B pressed. -/
theorem test_await_key :
    Next (runs (pressing 0x0800#16) 0xF20A)
      (fun t => t.pc == 0x202#16 && t.getV 2#4 == 0x0B#8) = true := by decide

/-- 2.7: LD DT, Vx. -/
theorem test_set_delay :
    Next (runs (start [(1, 0x3C#8)]) 0xF115) (fun t => t.dt == 0x3C#8 && t.st == 0#8) = true := by
  decide

/-- 2.7: LD ST, Vx turns the tone on. -/
theorem test_set_sound :
    Next (runs (start [(2, 5#8)]) 0xF218) (fun t => t.st == 5#8 && t.tone) = true := by
  decide

/-- 2.7: a tick from DT = 2, ST = 1 and from zero. -/
theorem test_tick :
    Next (step { given [.tick] with dt := 2#8, st := 1#8 })
        (fun t => t.dt == 1#8 && t.st == 0#8 && !t.tone) = true ∧
      Next (step (given [.tick])) (fun t => t.dt == 0#8 && t.st == 0#8) = true := by decide

/-- 70_reset_and_hazards.md section 1: P8 loaded: bytes at 0x200, and the font in place. -/
theorem test_load_image :
    Next (step (given [.load [0x51#8, 0x21#8], .cycle]))
      (fun t => t.mem == [(0x200, 0x51#8), (0x201, 0x21#8)] && t.mem.read 0 == 0xF0#8) = true := by
  decide

/-- P8: the illegal word 5121. -/
theorem test_unknown_opcode :
    Next (runs State.reset 0x5121)
      (fun t => t.latch == .faulted (.unknownOpcode 0x5121#16 0x200#16)) = true := by
  decide

/-- 60_exceptions.md section 1: the codes of the five faults (R300). -/
theorem test_fault_codes :
    [FaultCause.unknownOpcode 0#16 0#16, .stackUnderflow 0#16, .invalidFontIndex 0#8,
      .memoryOutOfRange .stackFull, .invalidKeyIndex 0#8].map FaultCause.code = [1, 2, 3, 4, 5] := by
  decide

/-- 10_state.md section 11: the ports of the reset state (R48, R49, R307). -/
theorem test_ports :
    Framebuffer.dimensions = (64, 32) ∧ State.reset.tone = false ∧
      State.reset.faultPort = .running := by decide

/-! ### Witnesses: for each obligation with hypotheses, states and operands that meet them -/

/-- `DecodeOfEncodeIsIdentity`, at the extreme operands. -/
theorem witness_DecodeOfEncodeIsIdentity :
    (Instr.sys 0xFFF#12).wellFormed = true ∧ (Instr.draw 0xF#4 0xF#4 0xF#4).wellFormed = true := by
  decide

/-- `EncodeOfDecodeIsTheWord`, in each of its cases. -/
theorem witness_EncodeOfDecodeIsTheWord :
    decode 0x8AB6#16 = .ok (.shiftRight 0xA#4) ∧ decode 0x8ABE#16 = .ok (.shiftLeft 0xA#4) ∧
      decode 0xDAB5#16 = .ok (.draw 0xA#4 0xB#4 0x5#4) := by decide

/-- `IllegalWordsAreExactlyTheListed`: each clause at its lowest illegal word, and a legal word
beside it. -/
theorem witness_IllegalWordsAreExactlyTheListed :
    (fieldC 0x5121#16 = 0x5#4 ∧ fieldN 0x5121#16 ≠ 0x0#4) ∧
      (fieldC 0x9121#16 = 0x9#4 ∧ fieldN 0x9121#16 ≠ 0x0#4) ∧
      (fieldC 0x8128#16 = 0x8#4 ∧ 8 ≤ (fieldN 0x8128#16).toNat ∧ fieldN 0x8128#16 ≠ 0xE#4) ∧
      (fieldC 0xE19F#16 = 0xE#4 ∧ fieldNN 0xE19F#16 ≠ 0x9E#8 ∧ fieldNN 0xE19F#16 ≠ 0xA1#8) ∧
      (fieldC 0xF100#16 = 0xF#4 ∧ decode 0xF107#16 = .ok (.getDelay 0x1#4)) := by decide

/-- `StepRunsTheDecodedInstruction`, at the highest address a fetch may have. -/
theorem witness_StepRunsTheDecodedInstruction :
    (atPc 0xFFE#16).Running ∧ nextAction (atPc 0xFFE#16) = .cycle ∧
      (atPc 0xFFE#16).pc.toNat ≤ 4094 ∧
      decode (wordOfBytes ((atPc 0xFFE#16).mem.read 0xFFE) ((atPc 0xFFE#16).mem.read 0xFFF)) =
        .ok (.sys 0x000#12) :=
  ⟨rfl, rfl, by decide, by decide⟩

/-- `FetchOutsideMemoryFaults`, at the lowest such pc and at the lowest whose first byte is
outside. -/
theorem witness_FetchOutsideMemoryFaults :
    ((atPc 0xFFF#16).Running ∧ nextAction (atPc 0xFFF#16) = .cycle ∧
      4094 < (atPc 0xFFF#16).pc.toNat ∧ (atPc 0xFFF#16).pc.toNat < 4096) ∧
    ((atPc 0x1000#16).Running ∧ nextAction (atPc 0x1000#16) = .cycle ∧
      4096 ≤ (atPc 0x1000#16).pc.toNat) :=
  ⟨⟨rfl, rfl, by decide, by decide⟩, ⟨rfl, rfl, by decide⟩⟩

/-- A core about to fetch the illegal word 5121. -/
def illegal : State := start [] [(0x200, 0x51#8), (0x201, 0x21#8)]

/-- `UnknownOpcodeFaultsWithWordAndPc`. -/
theorem witness_UnknownOpcodeFaultsWithWordAndPc :
    illegal.Running ∧ nextAction illegal = .cycle ∧ illegal.pc.toNat ≤ 4094 ∧
      0x5121#16 =
        wordOfBytes (illegal.mem.read illegal.pc.toNat) (illegal.mem.read (illegal.pc.toNat + 1)) ∧
      decode 0x5121#16 = .error (.unknownOpcode 0x5121#16) :=
  ⟨rfl, rfl, by decide, by decide, by decide⟩

/-- `EveryInstructionSelectsItsPcAdvance`, `EveryInstructionKeepsWhatItDoesNotWrite`: an instruction
of each advance state, and of each kind of state written. -/
theorem witness_EveryInstruction :
    (∃ t, exec (.jump 0xFFF#12) State.reset = .next t ∧ t.Running) ∧
      (∃ t, exec .ret (deep 16) = .next t ∧ t.Running) ∧
      (∃ t, exec (.call 0x300#12) (deep 15) = .next t ∧ t.Running) ∧
      (∃ t, exec (.skipEqConst 0#4 0#8) State.reset = .next t ∧ t.Running) ∧
      (∃ t, exec (.awaitInput 0#4) State.reset = .next t ∧ t.Running) ∧
      (∃ t, exec (.bcd 0#4) (atI 0xFFD#16) = .next t ∧ t.Running) ∧
      (∃ t, exec (.dump 0xF#4) (atI 0xFF0#16) = .next t ∧ t.Running) ∧
      (∃ t, exec (.draw 0#4 0#4 0x1#4) (atI 0xFFF#16) = .next t ∧ t.Running) ∧
      State.reset.Running ∧ (deep 16).Running ∧ (deep 15).Running ∧ (atI 0xFFD#16).Running ∧
      (atI 0xFF0#16).Running ∧ (atI 0xFFF#16).Running :=
  ⟨⟨_, rfl, rfl⟩, ⟨_, rfl, rfl⟩, ⟨_, rfl, rfl⟩, ⟨_, rfl, rfl⟩, ⟨_, rfl, rfl⟩, ⟨_, rfl, rfl⟩,
    ⟨_, rfl, rfl⟩, ⟨_, rfl, rfl⟩, rfl, rfl, rfl, rfl, rfl, rfl⟩

/-- `EveryInstructionRaisesItsFaultsOnly`: each clause at its boundary, on both sides. -/
theorem witness_EveryInstructionRaisesItsFaultsOnly :
    (∃ t, exec .ret State.reset = .next t ∧ t.latch = .faulted (.stackUnderflow 0x200#16)) ∧
      (∃ t, exec (.call 0#12) (deep 16) = .next t ∧
        t.latch = .faulted (.memoryOutOfRange .stackFull)) ∧
      (∃ t, exec (.fontChar 0#4) (start [(0, 16#8)]) = .next t ∧
        t.latch = .faulted (.invalidFontIndex 16#8)) ∧
      (∃ t, exec (.skipKeyPressed 0#4) (start [(0, 16#8)]) = .next t ∧
        t.latch = .faulted (.invalidKeyIndex 16#8)) ∧
      (∃ t, exec (.bcd 0#4) (atI 0xFFE#16) = .next t ∧
        t.latch = .faulted (.memoryOutOfRange (.addr 4096))) ∧
      (∃ t, exec (.bcd 0#4) (atI 0xFFD#16) = .next t ∧ t.latch = .running) ∧
      (∃ t, exec (.dump 1#4) (atI 0xFFF#16) = .next t ∧
        t.latch = .faulted (.memoryOutOfRange (.addr 4096))) ∧
      (∃ t, exec (.load 0#4) (atI 0x1001#16) = .next t ∧
        t.latch = .faulted (.memoryOutOfRange (.addr 4097))) ∧
      (∃ t, exec (.draw 0#4 0#4 1#4) (atI 0x1000#16) = .next t ∧
        t.latch = .faulted (.memoryOutOfRange (.addr 4096))) ∧
      (∃ t, exec (.draw 0#4 0#4 0#4) (atI 0xFFFF#16) = .next t ∧ t.latch = .running) :=
  ⟨⟨_, rfl, rfl⟩, ⟨_, rfl, rfl⟩, ⟨_, rfl, rfl⟩, ⟨_, rfl, rfl⟩, ⟨_, rfl, rfl⟩, ⟨_, rfl, rfl⟩,
    ⟨_, rfl, rfl⟩, ⟨_, rfl, rfl⟩, ⟨_, rfl, rfl⟩, ⟨_, rfl, rfl⟩⟩

/-- `StepKeepsInvariant`: the reset state. -/
theorem witness_StepKeepsInvariant :
    State.reset.Inv ∧ ∃ t, step State.reset = .next t :=
  ⟨⟨nil_wf, by decide, fun _ => ⟨by decide, fun _ h => nomatch h⟩⟩,
    exists_next (p := fun _ => true) (by decide)⟩

/-- `StepKeepsInvariant`: a state at the bounds of the invariant. -/
theorem witness_StepKeepsInvariant_bounds :
    { deep 16 with pc := 0x10FE#16 }.Inv ∧
      ∃ t, step { deep 16 with pc := 0x10FE#16 } = .next t :=
  ⟨⟨nil_wf, by decide, fun _ => ⟨by decide, fun _ h => List.eq_of_mem_replicate h ▸ by decide⟩⟩,
    exists_next (p := fun _ => true) (by decide)⟩

/-- `ResetMeetsInvariant`: the first and the last byte of the font (R69) and the byte after it. -/
theorem witness_ResetMeetsInvariant :
    State.reset.mem.read (5 * 0 + 0) = 0xF0#8 ∧ State.reset.mem.read (5 * 15 + 4) = 0x80#8 ∧
      State.reset.mem.read 80 = 0x00#8 := by decide

/-- `CanonicalMemoryIsDeterminedByItsBytes`: two ways to write the same bytes. -/
theorem witness_CanonicalMemoryIsDeterminedByItsBytes :
    (Memory.write (Memory.write [] 0xFFF 1#8) 0 2#8).wf ∧
      (Memory.write (Memory.write [] 0 2#8) 0xFFF 1#8).wf ∧
      Memory.write (Memory.write [] 0xFFF 1#8) 0 2#8 =
        Memory.write (Memory.write [] 0 2#8) 0xFFF 1#8 := by decide

/-- `CallPushesReturnAddress`, `RetUndoesCall`: both sides of the limit. -/
theorem witness_CallPushesReturnAddress :
    (deep 15).stack.length < 16 ∧ 16 ≤ (deep 16).stack.length := by decide

/-- `RetPopsIntoPc`: an empty stack and one entry. -/
theorem witness_RetPopsIntoPc :
    (deep 1).stack = 0x202#16 :: [] ∧ (deep 0).stack = [] := by decide

/-- `RegisterSkipsTestTheirOperands`: both outcomes, and the words of its last clause. -/
theorem witness_RegisterSkipsTestTheirOperands :
    State.reset.getV 0#4 = 0#8 ∧ State.reset.getV 0#4 ≠ 1#8 ∧
      State.reset.getV 0#4 = State.reset.getV 0xF#4 ∧
      (start [(0, 0xFF#8)]).getV 0#4 ≠ (start [(0, 0xFF#8)]).getV 0xF#4 ∧
      fieldC 0x5001#16 = 0x5#4 ∧ fieldC 0x9001#16 = 0x9#4 ∧ fieldN 0x5001#16 ≠ 0x0#4 ∧
      fieldN 0x9001#16 ≠ 0x0#4 := by decide

/-- `AddRegWritesSumAndCarry`, `SubWritesDifferenceAndNotBorrow`,
`SubReverseWritesDifferenceAndNotBorrow`, `ShiftsWriteTheBitShiftedOut`: the hypotheses of
`WritesResultAndFlag` are met by a destination other than VF and by VF with the value the order
has. -/
theorem witness_WritesResultAndFlag :
    (0x0#4 : Nibble) ≠ vf ∧ (0xF#4 : Nibble) = vf ∧
      (Config.vfAliasOrder = .flagWins ∨ Config.vfAliasOrder = .resultWins) :=
  ⟨by decide, rfl, by cases Config.vfAliasOrder <;> simp⟩

/-- `FontCharPointsAtGlyph`: the last glyph and the first value above it. -/
theorem witness_FontCharPointsAtGlyph :
    ((start [(0, 15#8)]).getV 0#4).toNat ≤ 15 ∧ 15 < ((start [(0, 16#8)]).getV 0#4).toNat := by
  decide

/-- `BcdStoresThreeDigits`: the highest `I` that fits, the lowest that does not, and one outside. -/
theorem witness_BcdStoresThreeDigits :
    (atI 0xFFD#16).mem.wf ∧ (atI 0xFFD#16).i.toNat + 2 < 4096 ∧
      4096 ≤ (atI 0xFFE#16).i.toNat + 2 ∧ (atI 0xFFE#16).i.toNat < 4096 ∧
      4096 ≤ (atI 0x1000#16).i.toNat := by decide

/-- `DumpStoresTheBlock`, `LoadReadsTheBlock`, `LoadAfterDumpKeepsRegisters`: the highest `I` at
which sixteen bytes fit, the lowest at which they do not, and one outside. -/
theorem witness_DumpStoresTheBlock :
    (atI 0xFF0#16).mem.wf ∧ (atI 0xFF0#16).i.toNat + (0xF#4 : Nibble).toNat < 4096 ∧
      4096 ≤ (atI 0xFF1#16).i.toNat + (0xF#4 : Nibble).toNat ∧
      4096 ≤ (atI 0x1000#16).i.toNat + (0x0#4 : Nibble).toNat := by decide

/-- `DrawXorsTheSprite`, `DrawTwiceRestoresTheImage`: no rows, rows that just fit, and rows that do
not; coordinates not in VF. -/
theorem witness_DrawXorsTheSprite :
    ((0x0#4 : Nibble).toNat = 0 ∧ (atI 0xFFFF#16).i.toNat = 0xFFFF) ∧
      (atI 0xFF1#16).i.toNat + (0xF#4 : Nibble).toNat ≤ 4096 ∧
      (0 < (0xF#4 : Nibble).toNat ∧ 4096 < (atI 0xFF2#16).i.toNat + (0xF#4 : Nibble).toNat) ∧
      (0x0#4 : Nibble) ≠ vf ∧ (0xE#4 : Nibble) ≠ vf := by decide

/-- `DrawXorsTheSprite`: a covered pixel, set and clear before, at the wrap of both axes. -/
theorem witness_SpriteCovers :
    SpriteCovers (start [(0, 0xFF#8), (1, 0xFF#8)]) 0#4 1#4 2#4 63 31 ∧
      SpriteCovers (start [(0, 0xFF#8), (1, 0xFF#8)]) 0#4 1#4 2#4 2 0 ∧
      ¬ SpriteCovers State.reset 0#4 0#4 0#4 0 0 :=
  ⟨⟨0, 0, by decide, by decide, by decide, by decide, by decide⟩,
    ⟨1, 3, by decide, by decide, by decide, by decide, by decide⟩,
    fun ⟨_, _, h, _⟩ => absurd h (Nat.not_lt_zero _)⟩

/-- `TickDecrementsBothTimers`: timers at zero and above. -/
theorem witness_TickDecrementsBothTimers :
    (given [.tick]).Running ∧ ({ State.reset with dt := 0xFF#8, st := 1#8 } : State).Running :=
  ⟨rfl, rfl⟩

/-- `TicksSaturateAtZero`. -/
theorem witness_TicksSaturateAtZero :
    (given [.tick, .tick, .cycle]).Running ∧
      (given [.tick, .tick, .cycle]).schedule = List.replicate 2 .tick ++ [.cycle] := ⟨rfl, rfl⟩

/-- `ToneChangesOnlyBySoundTimer`: a tick on a running core, and an instruction that is no FX18. -/
theorem witness_ToneChangesOnlyBySoundTimer :
    ((given [.tick]).Running ∧ nextAction (given [.tick]) = .tick) ∧
      (∃ t, exec (.setDelay 0#4) { State.reset with st := 1#8 } = .next t ∧ t.Running) ∧
      (∀ x, Instr.setDelay 0#4 ≠ .setSound x) := ⟨⟨rfl, rfl⟩, ⟨_, rfl, rfl⟩, by decide⟩

/-- `TimersAreReadOnlyByGetDelay`: another instruction with both timers changed, and FX07 with ST.
-/
theorem witness_TimersAreReadOnlyByGetDelay :
    ((∀ x, Instr.setI 0#12 = .getDelay x → 7#8 = State.reset.dt) ∧
      (∃ t, exec (.setI 0#12) State.reset = .next t) ∧
      ∃ t, exec (.setI 0#12) { State.reset with dt := 7#8, st := 9#8 } = .next t) ∧
    ((∀ x, Instr.getDelay 0#4 = .getDelay x → 0#8 = State.reset.dt) ∧
      (∃ t, exec (.getDelay 0#4) State.reset = .next t) ∧
      ∃ t, exec (.getDelay 0#4) { State.reset with dt := 0#8, st := 9#8 } = .next t) :=
  ⟨⟨by decide, ⟨_, rfl⟩, ⟨_, rfl⟩⟩, ⟨fun _ _ => rfl, ⟨_, rfl⟩, ⟨_, rfl⟩⟩⟩

/-- `KeySkipsReadTheNamedKey`: the last key and the first value above it. -/
theorem witness_KeySkipsReadTheNamedKey :
    ((start [(0, 15#8)]).getV 0#4).toNat ≤ 15 ∧ 15 < ((start [(0, 16#8)]).getV 0#4).toNat := by
  decide

/-- `AwaitInputWaitsForAKey`: no key, and two keys. -/
theorem witness_AwaitInputWaitsForAKey :
    (∀ k : Nibble, isPressed State.reset.keys k = false) ∧
      isPressed (pressing 0x8008#16).keys 0xF#4 = true ∧
      isPressed (pressing 0x8008#16).keys 0x3#4 = true := by decide

/-- `SysIsANoOp`: the lowest and the highest word of its group. -/
theorem witness_SysIsANoOp :
    (fieldC 0x0000#16 = 0x0#4 ∧ 0x0000#16 ≠ 0x00E0#16 ∧ 0x0000#16 ≠ 0x00EE#16) ∧
      (fieldC 0x0FFF#16 = 0x0#4 ∧ 0x0FFF#16 ≠ 0x00E0#16 ∧ 0x0FFF#16 ≠ 0x00EE#16) := by decide

/-- `KeyActionsChangeOneKey`. -/
theorem witness_KeyActionsChangeOneKey :
    (given [.press 0xF#4]).schedule = .press 0xF#4 :: [] ∧
      (given [.release 0x0#4, .cycle]).schedule = .release 0x0#4 :: [.cycle] := ⟨rfl, rfl⟩

/-- `StoppedCoreRefusesStrobes`: each strobe. -/
theorem witness_StoppedCoreRefusesStrobes :
    stopped.latch = .faulted (.invalidKeyIndex 0x10#8) ∧ nextAction stopped = .cycle ∧
      nextAction { stopped with schedule := [.tick] } = .tick := ⟨rfl, rfl, rfl⟩

/-- `OnlyLoadLeavesAFault`: a stopped core that a press leaves stopped, and one that a load frees.
-/
theorem witness_OnlyLoadLeavesAFault :
    (∃ t, step { stopped with schedule := [.press 0#4] } = .next t ∧
      t.latch = .faulted (.invalidKeyIndex 0x10#8)) ∧
      (∃ t, step { stopped with schedule := [.load []] } = .next t ∧ t.Running) :=
  ⟨⟨_, rfl, rfl⟩, ⟨_, rfl, rfl⟩⟩

/-- `LoadGivesTheResetState`, `OversizedImageIsRefused`: the longest image that fits, and one byte
more; on a stopped core. -/
theorem witness_LoadGivesTheResetState :
    (∃ im : List Byte, { stopped with schedule := [.load im] }.schedule = .load im :: [] ∧
      im.length = 3584) ∧
      (∃ im : List Byte, { stopped with schedule := [.load im] }.schedule = .load im :: [] ∧
        im.length = 3585) :=
  ⟨⟨List.replicate 3584 1#8, rfl, List.length_replicate⟩,
    ⟨List.replicate 3585 1#8, rfl, List.length_replicate⟩⟩

end Sys2Proof.Tests
end

section
/-!
PROOFS. The decoder's answer by the field `C` (R91, R94), and the source's decoding examples (R108).
-/

namespace Sys2Proof

/-! ### Groups that `C` alone selects -/

theorem decode_of_fieldC_eq_zero {w : Word} (hc : fieldC w = 0x0#4) :
    decode w = .ok (decodeGroup0 w) := by
  simp [decode, hc]

theorem decode_of_fieldC_eq_six {w : Word} (hc : fieldC w = 0x6#4) :
    decode w = .ok (.setConst (fieldX w) (fieldNN w)) := by
  simp [decode, hc]

theorem decode_of_fieldC_eq_ten {w : Word} (hc : fieldC w = 0xA#4) :
    decode w = .ok (.setI (fieldNNN w)) := by
  simp [decode, hc]

@[simp] theorem decodeGroup0_clearScreen : decodeGroup0 0x00E0#16 = .clearScreen := by rfl

/-! ### The source's examples -/

/-- Settles O4: `C` selects the instruction of each word, whose operands are then the word's
fields. -/
theorem sourceDecodingExamples : Obligations.SourceDecodingExamples := by
  unfold Obligations.SourceDecodingExamples
  refine ⟨?clearScreen, ?setI, ?setConst⟩
  case clearScreen =>
    rw [decode_of_fieldC_eq_zero (by decide), decodeGroup0_clearScreen]
  case setI =>
    have hnnn : fieldNNN 0xA2F0#16 = 0x2F0#12 := by decide
    rw [decode_of_fieldC_eq_ten (by decide), hnnn]
  case setConst =>
    have hx : fieldX 0x6A07#16 = 0xA#4 := by decide
    have hnn : fieldNN 0x6A07#16 = 0x07#8 := by decide
    rw [decode_of_fieldC_eq_six (by decide), hx, hnn]

end Sys2Proof
end

section
/-!
PROOFS. Control transfer without the stack: the jump (R160) and the four register skips
(R163 to R166).
-/

namespace Sys2Proof

/-! ### Groups 5 and 9: `C` selects the row, which asks for `N = 0` -/

theorem decode_of_fieldC_eq_five {w : Word} (hc : fieldC w = 0x5#4) :
    decode w = if fieldN w = 0x0#4 then .ok (.skipEqReg (fieldX w) (fieldY w))
      else .error (.unknownOpcode w) := by
  simp [decode, hc]

theorem decode_of_fieldC_eq_nine {w : Word} (hc : fieldC w = 0x9#4) :
    decode w = if fieldN w = 0x0#4 then .ok (.skipNeReg (fieldX w) (fieldY w))
      else .error (.unknownOpcode w) := by
  simp [decode, hc]

end Sys2Proof

namespace Sys2Proof.Machine

/-! ### A new `pc` and nothing else -/

theorem onlyPc_setPc (s : State) (pc : Word) : OnlyPc s { s with pc := pc } :=
  ⟨fun r _ => getV_congr rfl r, fun _ => rfl, rfl, rfl, rfl, ⟨rfl, rfl, rfl, rfl, rfl⟩, rfl⟩

theorem onlyPc_advance (s : State) (a : Advance) : OnlyPc s (s.advance a) :=
  onlyPc_setPc s (nextPc s.pc a)

/-- Zero extension keeps the value of an address operand (R92). -/
@[simp] theorem addressOperand_toNat (nnn : Addr12) :
    (addressOperand nnn).toNat = nnn.toNat :=
  BitVec.toNat_setWidth_of_le (by decide)

/-! ### What `exec` answers -/

theorem exec_jump (nnn : Addr12) (s : State) :
    exec (.jump nnn) s = .next (s.advance (.jump (addressOperand nnn))) := rfl

theorem exec_skipEqConst (x : Nibble) (nn : Byte) (s : State) :
    exec (.skipEqConst x nn) s = skipWhen (s.getV x == nn) s := rfl

theorem exec_skipNeConst (x : Nibble) (nn : Byte) (s : State) :
    exec (.skipNeConst x nn) s = skipWhen (s.getV x != nn) s := rfl

theorem exec_skipEqReg (x y : Nibble) (s : State) :
    exec (.skipEqReg x y) s = skipWhen (s.getV x == s.getV y) s := rfl

theorem exec_skipNeReg (x y : Nibble) (s : State) :
    exec (.skipNeReg x y) s = skipWhen (s.getV x != s.getV y) s := rfl

/-! ### Conditional skips -/

/-- A skip on equality goes over the next instruction when its operands are equal (R143, R145). -/
theorem skipWhen_beq (a b : Byte) (s : State) :
    ∃ t, skipWhen (a == b) s = .next t ∧ (a = b → t.pc = s.pc + 4#16) ∧
      (a ≠ b → t.pc = s.pc + 2#16) ∧ OnlyPc s t := by
  refine ⟨_, skipWhen_eq (a == b) s, fun heq => ?_, fun hne => ?_, onlyPc_setPc s _⟩
  · simp [heq]
  · simp [hne]

/-- A skip on inequality goes over the next instruction when its operands differ (R143, R145). -/
theorem skipWhen_bne (a b : Byte) (s : State) :
    ∃ t, skipWhen (a != b) s = .next t ∧ (a ≠ b → t.pc = s.pc + 4#16) ∧
      (a = b → t.pc = s.pc + 2#16) ∧ OnlyPc s t := by
  refine ⟨_, skipWhen_eq (a != b) s, fun hne => ?_, fun heq => ?_, onlyPc_setPc s _⟩
  · simp [hne]
  · simp [heq]

/-- Settles O20: each skip is a skip on equality or on inequality of its two operands, and groups 5
and 9 hold only the row with `N = 0`. -/
theorem registerSkipsTestTheirOperands : Obligations.RegisterSkipsTestTheirOperands := by
  unfold Obligations.RegisterSkipsTestTheirOperands
  refine ⟨fun x nn s => ?eqConst, fun x nn s => ?neConst, fun x y s => ?eqReg,
    fun x y s => ?neReg, fun w hc hn => ?unknown⟩
  case eqConst => rw [exec_skipEqConst]; exact skipWhen_beq (s.getV x) nn s
  case neConst => rw [exec_skipNeConst]; exact skipWhen_bne (s.getV x) nn s
  case eqReg => rw [exec_skipEqReg]; exact skipWhen_beq (s.getV x) (s.getV y) s
  case neReg => rw [exec_skipNeReg]; exact skipWhen_bne (s.getV x) (s.getV y) s
  case unknown =>
    rcases hc with hfive | hnine
    · rw [decode_of_fieldC_eq_five hfive, if_neg hn]
    · rw [decode_of_fieldC_eq_nine hnine, if_neg hn]

/-- Settles O16: the jump's advance state holds the zero-extended target, and an advance changes
`pc` alone. -/
theorem jumpSetsPc : Obligations.JumpSetsPc := by
  unfold Obligations.JumpSetsPc
  intro nnn s
  have hpc : (s.advance (.jump (addressOperand nnn))).pc.toNat = nnn.toNat := by simp
  exact ⟨_, exec_jump nnn s, hpc, onlyPc_advance s _⟩

end Sys2Proof.Machine
end

section
/-!
PROOFS. A result written to a register, alone (R182 to R187) or with its flag (R148, R188 to R192):
what the next state holds and what it keeps.
-/

namespace Sys2Proof.Machine

/-! ### New registers and a new `pc`, and nothing else -/

theorem onlyRegsAndPc_of_sameRegsBut {P : Nibble → Prop} {s : State} {v : Regs} {pc : Word}
    (hregs : SameRegsBut P s { s with v := v, pc := pc }) :
    OnlyRegsAndPc P s { s with v := v, pc := pc } :=
  ⟨hregs, fun _ => rfl, rfl, rfl, rfl, ⟨rfl, rfl, rfl, rfl, rfl⟩, rfl⟩

theorem onlyRegsAndPc_setV_advance (s : State) (x : Nibble) (r : Byte) (a : Advance) :
    OnlyRegsAndPc (fun q => q = x) s ((s.setV x r).advance a) :=
  onlyRegsAndPc_of_sameRegsBut fun _ hq => getV_setV_ne s r hq

theorem onlyRegsAndPc_setResultAndFlag_advance (s : State) (x : Nibble) (r : Byte) (f : Bool)
    (a : Advance) :
    OnlyRegsAndPc (fun q => q = x ∨ q = vf) s ((s.setResultAndFlag x r f).advance a) := by
  have hregs : ∀ q, ¬ (q = x ∨ q = vf) → (s.setResultAndFlag x r f).getV q = s.getV q := by
    intro q hq
    obtain ⟨hx, hvf⟩ := not_or.mp hq
    rw [getV_setResultAndFlag, if_neg hvf, if_neg hx]
  rw [setResultAndFlag_eq] at hregs ⊢
  exact onlyRegsAndPc_of_sameRegsBut hregs

/-! ### A result alone -/

theorem writeResult_spec (x : Nibble) (r : Byte) (s : State) :
    ∃ t, writeResult x r s = .next t ∧ t.getV x = r ∧ t.pc = s.pc + 2#16 ∧
      OnlyRegsAndPc (fun q => q = x) s t :=
  ⟨_, writeResult_eq x r s, by simp, by simp, onlyRegsAndPc_setV_advance s x r .normal⟩

/-! ### A result and its flag -/

@[simp] theorem setResultAndFlag_pc (s : State) (x : Nibble) (r : Byte) (f : Bool) :
    (s.setResultAndFlag x r f).pc = s.pc := by
  rw [setResultAndFlag_eq]

@[simp] theorem flagByte_toNat (f : Bool) : (flagByte f).toNat = f.toNat := by
  cases f <;> rfl

theorem aliasedVf_of_flagWins (h : Config.vfAliasOrder = .flagWins) (r f : Byte) :
    aliasedVf r f = f := by
  simp [aliasedVf, h]

theorem aliasedVf_of_resultWins (h : Config.vfAliasOrder = .resultWins) (r f : Byte) :
    aliasedVf r f = r := by
  simp [aliasedVf, h]

/-- The statement's result and flag are numbers; the operation's are a byte and a truth value. -/
theorem writeResultAndFlag_spec (x : Nibble) (r : Byte) (f : Bool) (s : State) :
    ∃ t, writeResultAndFlag x r f s = .next t ∧ WritesResultAndFlag x r.toNat f.toNat s t := by
  refine ⟨_, writeResultAndFlag_eq x r f s, fun hx => ⟨?result, ?flag⟩, fun hx hwins => ?flagWins,
    fun hx hwins => ?resultWins, by simp,
    onlyRegsAndPc_setResultAndFlag_advance s x r f .normal⟩
  case result => rw [advance_getV, getV_setResultAndFlag, if_neg hx, if_pos rfl]
  case flag => rw [advance_getV, getV_setResultAndFlag, if_pos rfl, if_neg hx, flagByte_toNat]
  case flagWins =>
    rw [advance_getV, getV_setResultAndFlag, if_pos rfl, if_pos hx, aliasedVf_of_flagWins hwins,
      flagByte_toNat]
  case resultWins =>
    rw [advance_getV, getV_setResultAndFlag, if_pos rfl, if_pos hx, aliasedVf_of_resultWins hwins]

end Sys2Proof.Machine
end

section
/-!
PROOFS. The immediate load (R182), the sum with its carry (R188), and both subtractions with NOT
borrow (R189, R191).
-/

namespace Sys2Proof.Machine

/-! ### What `exec` answers -/

theorem exec_setConst (x : Nibble) (nn : Byte) (s : State) :
    exec (.setConst x nn) s = writeResult x nn s := rfl

theorem exec_addReg (x y : Nibble) (s : State) :
    exec (.addReg x y) s =
      writeResultAndFlag x (s.getV x + s.getV y) (carryOf (s.getV x) (s.getV y)) s := rfl

theorem exec_sub (x y : Nibble) (s : State) :
    exec (.sub x y) s =
      writeResultAndFlag x (s.getV x - s.getV y) (notBorrowOf (s.getV x) (s.getV y)) s := rfl

theorem exec_subReverse (x y : Nibble) (s : State) :
    exec (.subReverse x y) s =
      writeResultAndFlag x (s.getV y - s.getV x) (notBorrowOf (s.getV y) (s.getV x)) s := rfl

/-! ### The flags and the difference as numbers -/

theorem carryOf_toNat (a b : Byte) :
    (carryOf a b).toNat = if 255 < a.toNat + b.toNat then 1 else 0 :=
  Bool.cond_decide _ _ _

theorem notBorrowOf_toNat (a b : Byte) :
    (notBorrowOf a b).toNat = if b.toNat ≤ a.toNat then 1 else 0 :=
  Bool.cond_decide _ _ _

/-- The wrapping difference is the plain one, with 256 added on a borrow (R189). -/
theorem toNat_sub_eq_ite_borrow (a b : Byte) :
    (a - b).toNat =
      if b.toNat ≤ a.toNat then a.toNat - b.toNat else a.toNat + 256 - b.toNat := by
  split
  case isTrue hle => exact BitVec.toNat_sub_of_le hle
  case isFalse hborrow =>
    rw [BitVec.toNat_sub_of_lt (Nat.lt_of_not_le hborrow)]
    omega

/-- SUB and SUBN write the difference of their operands, in the one order or the other. -/
theorem writeDifference_spec (x : Nibble) (a b : Byte) (s : State) :
    ∃ t, writeResultAndFlag x (a - b) (notBorrowOf a b) s = .next t ∧
      WritesResultAndFlag x
        (if b.toNat ≤ a.toNat then a.toNat - b.toNat else a.toNat + 256 - b.toNat)
        (if b.toNat ≤ a.toNat then 1 else 0) s t := by
  rw [← toNat_sub_eq_ite_borrow, ← notBorrowOf_toNat]
  exact writeResultAndFlag_spec x (a - b) (notBorrowOf a b) s

/-! ### The obligations -/

/-- Settles O25: ADD writes the wrapping sum, whose number is the sum mod 256, and the carry. -/
theorem addRegWritesSumAndCarry : Obligations.AddRegWritesSumAndCarry := by
  unfold Obligations.AddRegWritesSumAndCarry
  intro x y s
  have hsum : (s.getV x + s.getV y).toNat = ((s.getV x).toNat + (s.getV y).toNat) % 256 :=
    BitVec.toNat_add _ _
  rw [exec_addReg, ← hsum, ← carryOf_toNat]
  exact writeResultAndFlag_spec x _ _ s

/-- Settles O26: SUB writes the difference of `V[x]` and `V[y]`. -/
theorem subWritesDifferenceAndNotBorrow : Obligations.SubWritesDifferenceAndNotBorrow := by
  unfold Obligations.SubWritesDifferenceAndNotBorrow
  intro x y s
  rw [exec_sub]
  exact writeDifference_spec x (s.getV x) (s.getV y) s

/-- Settles O27: SUBN writes the difference of `V[y]` and `V[x]`, the operands exchanged. -/
theorem subReverseWritesDifferenceAndNotBorrow :
    Obligations.SubReverseWritesDifferenceAndNotBorrow := by
  unfold Obligations.SubReverseWritesDifferenceAndNotBorrow
  intro x y s
  rw [exec_subReverse]
  exact writeDifference_spec x (s.getV y) (s.getV x) s

/-- Settles O22: LD writes its immediate as a result alone. -/
theorem setConstLoadsImmediate : Obligations.SetConstLoadsImmediate := by
  unfold Obligations.SetConstLoadsImmediate
  intro x nn s
  rw [exec_setConst]
  exact writeResult_spec x nn s

end Sys2Proof.Machine
end

section
/-!
PROOFS. The address register loaded with an address (R211).
-/

namespace Sys2Proof.Machine

theorem exec_setI (nnn : Addr12) (s : State) :
    exec (.setI nnn) s = .next ({ s with i := addressOperand nnn }.advance .normal) := rfl

/-- A write of `I` and the Normal advance: what they set, and the frame both leave as it was. -/
theorem setI_advance_spec (w : Word) (s : State) :
    let t := { s with i := w }.advance .normal
    t.i = w ∧ t.pc = s.pc + 2#16 ∧ SameRegsBut (fun _ => False) s t ∧ SameMem s t ∧
      t.stack = s.stack ∧ t.fb = s.fb ∧ SameTimersAndPorts s t ∧ t.draws = s.draws :=
  ⟨rfl, nextPc_normal s.pc, fun r _ => getV_congr rfl r, fun _ => rfl, rfl, rfl,
    ⟨rfl, rfl, rfl, rfl, rfl⟩, rfl⟩

/-- Settles O30: the new `I` is the zero-extended operand, and its value is the operand's. -/
theorem setILoadsAddress : Obligations.SetILoadsAddress := by
  unfold Obligations.SetILoadsAddress
  intro nnn s
  obtain ⟨hi, hrest⟩ := setI_advance_spec (addressOperand nnn) s
  have hvalue : ({ s with i := addressOperand nnn }.advance .normal).i.toNat = nnn.toNat := by
    rw [hi, addressOperand_toNat]
  exact ⟨_, exec_setI nnn s, hvalue, hrest⟩

end Sys2Proof.Machine
end

section
/-!
PROOFS. The screen cleared (R240).
-/

namespace Sys2Proof.Machine

theorem exec_clearScreen (s : State) :
    exec .clearScreen s = .next ({ s with fb := Framebuffer.clear }.advance .normal) := rfl

/-- A write of the framebuffer and the Normal advance: what they set, and the frame both leave as
it was. -/
theorem setFb_advance_spec (fb : Framebuffer) (s : State) :
    let t := { s with fb := fb }.advance .normal
    t.fb = fb ∧ t.pc = s.pc + 2#16 ∧ SameRegsBut (fun _ => False) s t ∧ SameMem s t ∧
      t.i = s.i ∧ t.stack = s.stack ∧ SameTimersAndPorts s t ∧ t.draws = s.draws :=
  ⟨rfl, nextPc_normal s.pc, fun r _ => getV_congr rfl r, fun _ => rfl, rfl, rfl,
    ⟨rfl, rfl, rfl, rfl, rfl⟩, rfl⟩

/-- Settles O37: the framebuffer written is the cleared one, every pixel of which reads 0. -/
theorem clearScreenClearsEveryPixel : Obligations.ClearScreenClearsEveryPixel := by
  unfold Obligations.ClearScreenClearsEveryPixel
  intro s
  obtain ⟨hfb, hframe⟩ := setFb_advance_spec Framebuffer.clear s
  refine ⟨_, exec_clearScreen s, fun x y => ?pixel, hframe⟩
  case pixel => rw [hfb, get_clear]

end Sys2Proof.Machine
end

section
/-!
PROOFS. The moves between registers and timers (R260 to R262), and the tone after them (R323).
-/

namespace Sys2Proof.Machine

/-! ### What `exec` answers -/

theorem exec_getDelay (x : Nibble) (s : State) :
    exec (.getDelay x) s = writeResult x s.dt s := rfl

theorem exec_setDelay (x : Nibble) (s : State) :
    exec (.setDelay x) s = .next ({ s with dt := s.getV x, st := s.st }.advance .normal) := rfl

theorem exec_setSound (x : Nibble) (s : State) :
    exec (.setSound x) s = .next ({ s with dt := s.dt, st := s.getV x }.advance .normal) := rfl

/-! ### The timers and the tone -/

/-- A write of the timers and the Normal advance: what they set, and the frame both leave as it
was. -/
theorem setTimers_advance_spec (dt st : Byte) (s : State) :
    let t := { s with dt := dt, st := st }.advance .normal
    t.dt = dt ∧ t.st = st ∧ t.pc = s.pc + 2#16 ∧ SameRegsBut (fun _ => False) s t ∧
      SameMem s t ∧ t.i = s.i ∧ t.stack = s.stack ∧ t.fb = s.fb ∧ t.latch = s.latch ∧
      t.keys = s.keys ∧ t.schedule = s.schedule ∧ t.draws = s.draws :=
  ⟨rfl, rfl, nextPc_normal s.pc, fun r _ => getV_congr rfl r, fun _ => rfl, rfl, rfl, rfl, rfl,
    rfl, rfl, rfl⟩

/-- The tone is on exactly when the sound timer is not 0 (R49). -/
theorem tone_eq_true_iff (s : State) : s.tone = true ↔ s.st ≠ 0#8 :=
  calc s.tone = true
    _ ↔ 0 < s.st.toNat := decide_eq_true_iff
    _ ↔ s.st.toNat ≠ (0#8).toNat := Nat.pos_iff_ne_zero
    _ ↔ s.st ≠ 0#8 := BitVec.toNat_ne.symm

/-- Settles O40: LD Vx, DT writes DT as a result alone; the other two write the one timer and leave
the other, and the tone follows the sound timer. -/
theorem timerMovesCopyTheirOperand : Obligations.TimerMovesCopyTheirOperand := by
  unfold Obligations.TimerMovesCopyTheirOperand
  refine ⟨fun x s => ?getDelay, fun x s => ?setDelay, fun x s => ?setSound⟩
  case getDelay =>
    rw [exec_getDelay]
    exact writeResult_spec x s.dt s
  case setDelay => exact ⟨_, exec_setDelay x s, setTimers_advance_spec (s.getV x) s.st s⟩
  case setSound =>
    obtain ⟨hdt, hst, hframe⟩ := setTimers_advance_spec s.dt (s.getV x) s
    refine ⟨_, exec_setSound x s, hst, hdt, ?tone, hframe⟩
    case tone => rw [tone_eq_true_iff, hst]

end Sys2Proof.Machine
end

section
/-!
PROOFS. The wait for a key (R282), from the two facts of the key port (R47).
-/

namespace Sys2Proof.Machine

theorem exec_awaitInput (x : Nibble) (s : State) :
    exec (.awaitInput x) s = execAwaitInput x s := rfl

/-! ### What the key port answers -/

theorem isPressed_of_firstPressed_eq_some {keys : BitVec 16} {k : Nibble}
    (h : firstPressed keys = some k) : isPressed keys k = true := by
  have hspec := firstPressed_spec keys
  rwa [h] at hspec

theorem firstPressed_eq_none_iff {keys : BitVec 16} :
    firstPressed keys = none ↔ ∀ k, isPressed keys k = false := by
  constructor
  case mp =>
    intro h
    have hspec := firstPressed_spec keys
    rwa [h] at hspec
  case mpr =>
    intro hup
    refine Option.eq_none_iff_forall_ne_some.mpr fun k h => ?_
    exact Bool.false_ne_true ((hup k).symm.trans (isPressed_of_firstPressed_eq_some h))

theorem exists_firstPressed_eq_some {keys : BitVec 16} {k : Nibble}
    (hk : isPressed keys k = true) : ∃ j, firstPressed keys = some j := by
  refine Option.ne_none_iff_exists'.mp fun hnone => ?_
  exact Bool.false_ne_true ((firstPressed_eq_none_iff.mp hnone k).symm.trans hk)

/-! ### The key taken -/

/-- The key taken is written as a result alone. -/
theorem execAwaitInput_eq_writeResult {s : State} {k : Nibble}
    (h : firstPressed s.keys = some k) (x : Nibble) :
    execAwaitInput x s = writeResult x (k.setWidth 8) s := by
  rw [execAwaitInput_some h, writeResult_eq]

/-- Settles O46: the key port answers none exactly with no key pressed, and then the state is the
one before; otherwise it answers a pressed key, whose number is the result written. -/
theorem awaitInputWaitsForAKey : Obligations.AwaitInputWaitsForAKey := by
  unfold Obligations.AwaitInputWaitsForAKey
  refine fun x s => ⟨fun hup => ?waits, fun ⟨_, hdown⟩ => ?takes⟩
  case waits => rw [exec_awaitInput, execAwaitInput_none (firstPressed_eq_none_iff.mpr hup)]
  case takes =>
    obtain ⟨k, hk⟩ := exists_firstPressed_eq_some hdown
    obtain ⟨t, hexec, hresult, hpc, hframe⟩ := writeResult_spec x (k.setWidth 8) s
    refine ⟨t, k, ?exec, hk, isPressed_of_firstPressed_eq_some hk, ?value, hpc, hframe⟩
    case exec => rw [exec_awaitInput, execAwaitInput_eq_writeResult hk, hexec]
    case value => rw [hresult, BitVec.toNat_setWidth_of_le (by decide)]

end Sys2Proof.Machine
end

section
/-!
PROOFS. The tick step on a running core (R320).
-/

namespace Sys2Proof.Machine

/-- Settles O41: the tick answers the state with each timer ticked, which is one less saturating at
zero; the update writes no other component. -/
theorem tickDecrementsBothTimers : Obligations.TickDecrementsBothTimers := by
  unfold Obligations.TickDecrementsBothTimers
  intro s hrun
  refine ⟨_, tickStep_running hrun, tickTimer_toNat s.dt, tickTimer_toNat s.st, ?frame⟩
  case frame => exact ⟨rfl, rfl, rfl, rfl, rfl, rfl, rfl, rfl, rfl, rfl⟩

end Sys2Proof.Machine
end

section
/-!
PROOFS. The decoder against the encoder (R94, R101): each group of words by the field `C`, the
illegal words of each group (R97 to R100), and group 0 as SYS (R95).
-/

namespace Sys2Proof

/-! ### A word is packed from its fields (R91) -/

theorem packNNN_fields {w : Word} {c : Nibble} (hc : (fieldC w).toNat = c.toNat) :
    packNNN c (fieldNNN w) = w := by
  refine BitVec.eq_of_toNat_eq ?_
  rw [packNNN_toNat, fieldNNN_toNat, ← hc, fieldC_toNat]
  omega

theorem packXNN_fields {w : Word} {c : Nibble} {nn : Byte} (hc : (fieldC w).toNat = c.toNat)
    (hnn : (fieldNN w).toNat = nn.toNat) : packXNN c (fieldX w) nn = w := by
  refine BitVec.eq_of_toNat_eq ?_
  rw [packXNN_toNat, fieldX_toNat, ← hc, fieldC_toNat, ← hnn, fieldNN_toNat]
  omega

theorem packXYN_fields {w : Word} {c n : Nibble} (hc : (fieldC w).toNat = c.toNat)
    (hn : (fieldN w).toNat = n.toNat) : packXYN c (fieldX w) (fieldY w) n = w := by
  refine BitVec.eq_of_toNat_eq ?_
  rw [packXYN_toNat, fieldX_toNat, fieldY_toNat, ← hc, fieldC_toNat, ← hn, fieldN_toNat]
  omega

/-- Clearing the bits of the field `Y` is packing a word with `Y = 0`. -/
theorem packXYN_zero_fields {w : Word} {c n : Nibble} (hc : (fieldC w).toNat = c.toNat)
    (hn : (fieldN w).toNat = n.toNat) : packXYN c (fieldX w) 0x0#4 n = w &&& 0xFF0F#16 := by
  have hcleared : ∀ c' x y n' : Nibble,
      (c' ++ x ++ y ++ n' : Word) &&& 0xFF0F#16 = c' ++ x ++ 0x0#4 ++ n' := by
    intro c' x y n'
    have hmask : 0xFF0F#16 = BitVec.allOnes 4 ++ BitVec.allOnes 4 ++ 0x0#4 ++ BitVec.allOnes 4 := by
      decide
    rw [hmask, BitVec.and_append, BitVec.and_append, BitVec.and_append]
    simp only [BitVec.and_allOnes, BitVec.and_zero]
  calc packXYN c (fieldX w) 0x0#4 n
    _ = packXYN c (fieldX w) (fieldY w) n &&& 0xFF0F#16 := (hcleared c _ _ n).symm
    _ = w &&& 0xFF0F#16 := by rw [packXYN_fields hc hn]

/-! ### Group 0: SYS but for two words (R95) -/

theorem packNNN_zero_eq_iff (nnn a : Addr12) : packNNN 0x0#4 nnn = packNNN 0x0#4 a ↔ nnn = a :=
  ⟨fun h => by simpa using congrArg fieldNNN h, fun h => h ▸ rfl⟩

theorem decodeGroup0_sys {w : Word} (hcls : w ≠ 0x00E0#16) (hret : w ≠ 0x00EE#16) :
    decodeGroup0 w = .sys (fieldNNN w) := by
  rw [decodeGroup0, if_neg hcls, if_neg hret]

theorem sysOperandOk_iff (nnn : Addr12) :
    sysOperandOk nnn = true ↔
      packNNN 0x0#4 nnn ≠ 0x00E0#16 ∧ packNNN 0x0#4 nnn ≠ 0x00EE#16 := by
  have hcls : 0x00E0#16 = packNNN 0x0#4 0x0E0#12 := by decide
  have hret : 0x00EE#16 = packNNN 0x0#4 0x0EE#12 := by decide
  rw [hcls, hret, Ne, Ne, packNNN_zero_eq_iff, packNNN_zero_eq_iff]
  simp [sysOperandOk]

/-! ### Decoding what was encoded -/

/-- Settles O1: the fields of a packed word are those it was packed from, so `C`, and `N` or `NN`
where they select, lead the decoder to the row of the instruction. -/
theorem decodeOfEncodeIsIdentity : Obligations.DecodeOfEncodeIsIdentity := by
  unfold Obligations.DecodeOfEncodeIsIdentity
  intro i hwf
  cases i
  case sys nnn =>
    obtain ⟨hcls, hret⟩ := (sysOperandOk_iff nnn).mp hwf
    rw [encode, decode_of_fieldC_eq_zero (fieldC_packNNN _ _), decodeGroup0_sys hcls hret,
      fieldNNN_packNNN]
  case clearScreen | ret => rfl
  case setReg | orReg | andReg | xorReg | addReg | sub | shiftRight | subReverse | shiftLeft =>
    simp [encode, decode, decodeGroup8]
  case skipKeyPressed | skipKeyNotPressed => simp [encode, decode, decodeGroupE]
  case getDelay | awaitInput | setDelay | setSound | addI | fontChar | bcd | dump | load =>
    simp [encode, decode, decodeGroupF]
  case jump | call | setI | jumpOffset => simp [encode, decode]
  case skipEqConst | skipNeConst | setConst | addConst | random => simp [encode, decode]
  case skipEqReg | skipNeReg | draw => simp [encode, decode]

/-- Settles O5: each word is the encoding of the instruction it stands for. -/
theorem oneWordOfEachFamilyDecodes : Obligations.OneWordOfEachFamilyDecodes := by
  have hdecode : ∀ {w : Word} {i : Instr}, i.wellFormed = true → encode i = w →
      decode w = .ok i := fun hwf hw => hw ▸ decodeOfEncodeIsIdentity _ hwf
  unfold Obligations.OneWordOfEachFamilyDecodes
  exact ⟨hdecode rfl (by decide), hdecode rfl (by decide), hdecode rfl (by decide),
    hdecode rfl (by decide), hdecode rfl (by decide), hdecode rfl (by decide)⟩

/-! ### Encoding what was decoded -/

/-- The word that encodes what `w` decodes to: `w`, with the ignored `Y` of a shift cleared
(R101). -/
def canonicalWord (w : Word) : Instr → Word
  | .shiftRight _ => w &&& 0xFF0F#16
  | .shiftLeft _ => w &&& 0xFF0F#16
  | _ => w

/-- `i` stands for the word `w`. -/
def StandsFor (i : Instr) (w : Word) : Prop := i.wellFormed = true ∧ encode i = canonicalWord w i

theorem standsFor_of_decodeGroup0 {w : Word} (hc : (fieldC w).toNat = 0x0) :
    StandsFor (decodeGroup0 w) w := by
  by_cases hcls : w = 0x00E0#16
  case pos => subst hcls; exact ⟨rfl, rfl⟩
  by_cases hret : w = 0x00EE#16
  case pos => subst hret; exact ⟨rfl, rfl⟩
  have hpack : packNNN 0x0#4 (fieldNNN w) = w := packNNN_fields hc
  rw [decodeGroup0_sys hcls hret]
  exact ⟨(sysOperandOk_iff _).mpr (by rw [hpack]; exact ⟨hcls, hret⟩), hpack⟩

theorem standsFor_of_decodeGroup8 {w : Word} {i : Instr} (hc : (fieldC w).toNat = 0x8)
    (h : decodeGroup8 w = .ok i) : StandsFor i w := by
  unfold decodeGroup8 at h
  split at h <;> cases h
  case h_7 hn => exact ⟨rfl, packXYN_zero_fields hc hn⟩
  case h_9 hn => exact ⟨rfl, packXYN_zero_fields hc hn⟩
  all_goals exact ⟨rfl, packXYN_fields hc ‹_›⟩

theorem standsFor_of_decodeGroupE {w : Word} {i : Instr} (hc : (fieldC w).toNat = 0xE)
    (h : decodeGroupE w = .ok i) : StandsFor i w := by
  unfold decodeGroupE at h
  split at h <;> cases h
  all_goals exact ⟨rfl, packXNN_fields hc ‹_›⟩

theorem standsFor_of_decodeGroupF {w : Word} {i : Instr} (hc : (fieldC w).toNat = 0xF)
    (h : decodeGroupF w = .ok i) : StandsFor i w := by
  unfold decodeGroupF at h
  split at h <;> cases h
  all_goals exact ⟨rfl, packXNN_fields hc ‹_›⟩

theorem standsFor_of_decode {w : Word} {i : Instr} (h : decode w = .ok i) : StandsFor i w := by
  unfold decode at h
  split at h
  case h_1 hc => cases h; exact standsFor_of_decodeGroup0 hc
  case h_2 hc | h_3 hc | h_11 hc | h_12 hc => cases h; exact ⟨rfl, packNNN_fields hc⟩
  case h_4 hc | h_5 hc | h_7 hc | h_8 hc | h_13 hc =>
    cases h; exact ⟨rfl, packXNN_fields hc rfl⟩
  case h_6 hc | h_10 hc =>
    split at h <;> cases h
    next hn => exact ⟨rfl, packXYN_fields hc (congrArg BitVec.toNat hn)⟩
  case h_9 hc => exact standsFor_of_decodeGroup8 hc h
  case h_14 hc => cases h; exact ⟨rfl, packXYN_fields hc rfl⟩
  case h_15 hc => exact standsFor_of_decodeGroupE hc h
  case h_16 hc => exact standsFor_of_decodeGroupF hc h
  case h_17 => cases h

/-- Settles O2: what a row decodes to has the row's fixed fields and the word's operands, and a word
is packed from its fields. -/
theorem encodeOfDecodeIsTheWord : Obligations.EncodeOfDecodeIsTheWord := by
  unfold Obligations.EncodeOfDecodeIsTheWord
  exact fun w i h => standsFor_of_decode h

/-! ### The illegal words (R97 to R100) -/

theorem decodeGroup8_eq_error_iff (w : Word) :
    decodeGroup8 w = .error (.unknownOpcode w) ↔ 8 ≤ (fieldN w).toNat ∧ fieldN w ≠ 0xE#4 := by
  rw [BitVec.toNat_ne, BitVec.toNat_ofNat]
  have hlt := (fieldN w).isLt
  unfold decodeGroup8
  split
  case h_10 => exact iff_of_true rfl (by simp only [imp_false] at *; omega)
  all_goals exact iff_of_false nofun (by omega)

theorem decodeGroupE_eq_error_iff (w : Word) :
    decodeGroupE w = .error (.unknownOpcode w) ↔ fieldNN w ≠ 0x9E#8 ∧ fieldNN w ≠ 0xA1#8 := by
  simp only [BitVec.toNat_ne, BitVec.toNat_ofNat]
  unfold decodeGroupE
  split
  case h_3 => exact iff_of_true rfl (by simp only [imp_false] at *; omega)
  all_goals exact iff_of_false nofun (by omega)

theorem decodeGroupF_eq_error_iff (w : Word) :
    decodeGroupF w = .error (.unknownOpcode w) ↔
      fieldNN w ∉
        [0x07#8, 0x0A#8, 0x15#8, 0x18#8, 0x1E#8, 0x29#8, 0x33#8, 0x55#8, 0x65#8] := by
  simp only [List.mem_cons, List.not_mem_nil, or_false, ← BitVec.toNat_inj, BitVec.toNat_ofNat]
  unfold decodeGroupF
  split
  case h_10 => exact iff_of_true rfl (by simp only [imp_false] at *; omega)
  all_goals exact iff_of_false nofun (by omega)

theorem decode_ok_or_unknownOpcode (w : Word) :
    (∃ i, decode w = .ok i) ∨ decode w = .error (.unknownOpcode w) := by
  unfold decode decodeGroup8 decodeGroupE decodeGroupF
  split
  case h_6 | h_9 | h_10 | h_15 | h_16 => split <;> simp
  all_goals simp

/-- Settles O3: the field `C` leaves at most one clause of the list standing, and that clause says
when the row or the group of `C` refuses the word. -/
theorem illegalWordsAreExactlyTheListed : Obligations.IllegalWordsAreExactlyTheListed := by
  unfold Obligations.IllegalWordsAreExactlyTheListed
  refine fun w => ⟨decode_ok_or_unknownOpcode w, ?_⟩
  simp only [← BitVec.toNat_inj (x := fieldC w), BitVec.toNat_ofNat]
  have hlt := (fieldC w).isLt
  unfold decode
  split
  case h_6 hc | h_10 hc => simp [hc]
  case h_9 hc => simp [hc, decodeGroup8_eq_error_iff]
  case h_15 hc => simp [hc, decodeGroupE_eq_error_iff]
  case h_16 hc => simp [hc, decodeGroupF_eq_error_iff]
  case h_17 => simp only [imp_false] at *; omega
  all_goals next hc => simp [hc]

end Sys2Proof
end

section
/-!
PROOFS. The step as the next host action (R354, R358): the cycle by what it fetches (R140 to R142),
the strobes of a stopped core (R151, R308), the ticks in a row (R321), the key actions (R46) and
the load (R340, R341); and the state after reset (R41).
-/

namespace Sys2Proof.Machine

/-! ### The next host action -/

theorem step_of_nextAction {s : State} {a : HostAction} (h : nextAction s = a) :
    step s = perform a { s with schedule := s.schedule.tail } := by
  rw [step, performNext, h]

theorem step_of_schedule {s : State} {a : HostAction} {rest : List HostAction}
    (h : s.schedule = a :: rest) : step s = perform a { s with schedule := rest } := by
  have hnext : nextAction s = a := by rw [nextAction, h, List.headD_cons]
  rw [step_of_nextAction hnext, h, List.tail_cons]

/-- An empty schedule stands for a cycle, so any other action is listed. -/
theorem exists_schedule_eq_cons {s : State} {a : HostAction} (h : nextAction s = a)
    (ha : a ≠ .cycle) : ∃ rest, s.schedule = a :: rest := by
  unfold nextAction at h
  rcases hs : s.schedule with _ | ⟨b, rest⟩
  · rw [hs] at h; exact absurd h.symm ha
  · rw [hs] at h; exact ⟨rest, by rw [← h, List.headD_cons]⟩

/-! ### What is fetched -/

theorem fetchInstr_of_decode_ok {s : State} {i : Instr} (hpc : s.pc.toNat ≤ 4094)
    (h : decode (wordOfBytes (s.mem.read s.pc.toNat) (s.mem.read (s.pc.toNat + 1))) = .ok i) :
    fetchInstr s = .ok i := by
  simp only [fetchInstr, fetch_eq, if_pos hpc, h]

theorem fetchInstr_of_decode_error {s : State} {w : Word} {e : DecodeError}
    (hpc : s.pc.toNat ≤ 4094)
    (hw : w = wordOfBytes (s.mem.read s.pc.toNat) (s.mem.read (s.pc.toNat + 1)))
    (h : decode w = .error e) : fetchInstr s = .error (.unknownOpcode w s.pc) := by
  simp only [fetchInstr, fetch_eq, if_pos hpc, ← hw, h]

theorem fetchInstr_of_pc_gt {s : State} (hpc : 4094 < s.pc.toNat) :
    fetchInstr s = .error (.memoryOutOfRange (.addr (max s.pc.toNat 4096))) := by
  simp only [fetchInstr, fetch_eq, if_neg (Nat.not_le_of_lt hpc)]

/-! ### The strobes -/

theorem cycleStep_of_fetchInstr_ok {s : State} {i : Instr} (hrun : s.Running)
    (h : fetchInstr s = .ok i) : cycleStep s = exec i s := by
  have hlatch : s.latch = .running := hrun
  simp only [cycleStep, hlatch, h]

theorem cycleStep_of_fetchInstr_error {s : State} {c : FaultCause} (hrun : s.Running)
    (h : fetchInstr s = .error c) : cycleStep s = .next (raise c s) := by
  have hlatch : s.latch = .running := hrun
  simp only [cycleStep, hlatch, h]

theorem cycleStep_faulted {s : State} {c : FaultCause} (h : s.latch = .faulted c) :
    cycleStep s = .fault (.coreStopped c) := by
  simp only [cycleStep, h]

theorem tickStep_faulted {s : State} {c : FaultCause} (h : s.latch = .faulted c) :
    tickStep s = .fault (.coreStopped c) := by
  simp only [tickStep, h]

/-- A fault in fetch or decode is the step's answer when the next action is a cycle. -/
theorem exists_step_faulted {s : State} {c : FaultCause} (hrun : s.Running)
    (hnext : nextAction s = .cycle)
    (h : fetchInstr { s with schedule := s.schedule.tail } = .error c) :
    ∃ t, step s = .next t ∧ t.latch = .faulted c := by
  rw [step_of_nextAction hnext]
  exact ⟨_, cycleStep_of_fetchInstr_error hrun h, raise_latch c _⟩

/-- Settles O6: the cycle fetches the word at `pc`, which the schedule does not change. -/
theorem stepRunsTheDecodedInstruction : Obligations.StepRunsTheDecodedInstruction := by
  unfold Obligations.StepRunsTheDecodedInstruction
  intro s i hrun hnext hpc hdecode
  rw [step_of_nextAction hnext]
  exact cycleStep_of_fetchInstr_ok hrun (fetchInstr_of_decode_ok hpc hdecode)

/-- Settles O7: the fetch reports the first of the two addresses that is outside. -/
theorem fetchOutsideMemoryFaults : Obligations.FetchOutsideMemoryFaults := by
  unfold Obligations.FetchOutsideMemoryFaults
  intro s hrun hnext hpc
  rw [← max_def']
  exact exists_step_faulted hrun hnext (fetchInstr_of_pc_gt hpc)

/-- Settles O8: the decoder's error becomes the fault with the word and its address. -/
theorem unknownOpcodeFaultsWithWordAndPc : Obligations.UnknownOpcodeFaultsWithWordAndPc := by
  unfold Obligations.UnknownOpcodeFaultsWithWordAndPc
  intro s w hrun hnext hpc hw hdecode
  exact exists_step_faulted hrun hnext (fetchInstr_of_decode_error hpc hw hdecode)

/-- Settles O49: the next action is a strobe, and both strobes are refused. -/
theorem stoppedCoreRefusesStrobes : Obligations.StoppedCoreRefusesStrobes := by
  unfold Obligations.StoppedCoreRefusesStrobes
  intro s c hlatch hnext
  rcases hnext with hcycle | htick
  · rw [step_of_nextAction hcycle]; exact cycleStep_faulted hlatch
  · rw [step_of_nextAction htick]; exact tickStep_faulted hlatch

/-! ### Ticks in a row -/

theorem run_succ_of_step_next {M : Host.Core} {s t : M.State} (h : M.step s = .next t) (n : Nat) :
    M.run (n + 1) s = M.run n t := by
  rw [Host.Core.run, h]

/-- Settles O42: by induction on the number of ticks; each takes one from both timers. -/
theorem ticksSaturateAtZero : Obligations.TicksSaturateAtZero := by
  unfold Obligations.TicksSaturateAtZero
  intro n
  induction n with
  | zero => exact fun s _ _ _ => ⟨s, rfl, rfl, rfl⟩
  | succ n ih =>
    intro s rest hrun hschedule
    have hstep := (step_of_schedule hschedule).trans (tickStep_running hrun)
    obtain ⟨t, ht, hdt, hst⟩ := ih { s with
      schedule := List.replicate n .tick ++ rest, dt := tickTimer s.dt, st := tickTimer s.st }
      rest hrun rfl
    refine ⟨t, (run_succ_of_step_next (M := core) hstep n).trans ht, ?dt, ?st⟩
    case dt => rw [hdt, tickTimer_toNat, Nat.sub_sub, Nat.add_comm]
    case st => rw [hst, tickTimer_toNat, Nat.sub_sub, Nat.add_comm]

/-! ### The key actions -/

/-- Settles O48: the action writes the key state, of which it changes the one bit. -/
theorem keyActionsChangeOneKey : Obligations.KeyActionsChangeOneKey := by
  unfold Obligations.KeyActionsChangeOneKey
  intro s k rest
  refine ⟨fun h => ⟨_, step_of_schedule h, fun q => ?press, rfl, rfl⟩,
    fun h => ⟨_, step_of_schedule h, fun q => ?release, rfl, rfl⟩⟩
  case press => simp [isPressed_pressKey, or_comm]
  case release => simp [isPressed_releaseKey, and_comm]

/-! ### The load -/

theorem loadStep_of_le {im : List Byte} (h : im.length ≤ 3584) (s : State) :
    loadStep im s = .next (loadedState im s) :=
  if_pos h

theorem loadStep_of_gt {im : List Byte} (h : 3584 < im.length) (s : State) :
    loadStep im s = .refused (.imageTooLong im.length) :=
  if_neg (Nat.not_le_of_lt h)

theorem loadStep_next {im : List Byte} {s t : State} (h : loadStep im s = .next t) :
    im.length ≤ 3584 ∧ t = loadedState im s := by
  rcases Nat.lt_or_ge 3584 im.length with hlong | hfits
  · rw [loadStep_of_gt hlong] at h; cases h
  · rw [loadStep_of_le hfits] at h; cases h; exact ⟨hfits, rfl⟩

theorem loadedState_mem_wf {im : List Byte} (h : im.length ≤ 3584) (s : State) :
    (loadedState im s).mem.wf :=
  writeAll_wf nil_wf (Nat.add_le_of_le_sub' (by decide) h)

/-- Every byte after a load: the image from 0x200, and the reset contents elsewhere (R340). -/
theorem loadedState_read {im : List Byte} (h : im.length ≤ 3584) (s : State) (a : Nat) :
    (loadedState im s).mem.read a =
      if a < 0x200 ∨ 0x200 + im.length ≤ a then resetByte a else im.getD (a - 0x200) 0#8 :=
  read_writeAll nil_wf (Nat.add_le_of_le_sub' (by decide) h) a

/-- Settles O51: the load answers the loaded state, whose memory is the reset memory with the image
written at 0x200. -/
theorem loadGivesTheResetState : Obligations.LoadGivesTheResetState := by
  unfold Obligations.LoadGivesTheResetState
  intro s im rest hschedule hfits
  refine ⟨_, (step_of_schedule hschedule).trans (loadStep_of_le hfits _), fun k hk => ?image,
    fun a ha => ?outside, loadedState_mem_wf hfits _, rfl, rfl, rfl, rfl, rfl, rfl, rfl,
    get_clear, rfl, rfl, rfl⟩
  case image => rw [loadedState_read hfits, if_neg (by omega), Nat.add_sub_cancel_left]
  case outside => rw [loadedState_read hfits, if_pos ha]; rfl

/-- Settles O52: the load of a longer image is refused. -/
theorem oversizedImageIsRefused : Obligations.OversizedImageIsRefused := by
  unfold Obligations.OversizedImageIsRefused
  intro s im rest hschedule hlong
  exact (step_of_schedule hschedule).trans (loadStep_of_gt hlong _)

/-- Settles O50: the strobes are refused, the key actions do not touch the latch, and a load leaves
a running core. -/
theorem onlyLoadLeavesAFault : Obligations.OnlyLoadLeavesAFault := by
  unfold Obligations.OnlyLoadLeavesAFault
  intro s t c hlatch hstep
  cases ha : nextAction s
  case cycle => rw [stoppedCoreRefusesStrobes s c hlatch (.inl ha)] at hstep; cases hstep
  case tick => rw [stoppedCoreRefusesStrobes s c hlatch (.inr ha)] at hstep; cases hstep
  case press | release => rw [step_of_nextAction ha] at hstep; cases hstep; exact .inl hlatch
  case load im =>
    rw [step_of_nextAction ha] at hstep
    obtain ⟨-, rfl⟩ := loadStep_next hstep
    exact .inr ⟨⟨im, exists_schedule_eq_cons ha nofun⟩, loadedState_latch im _⟩

/-! ### The state after reset -/

theorem reset_mem_read (a : Nat) : State.reset.mem.read a = fontBytes.getD a 0x00#8 := rfl

theorem reset_inv : State.reset.Inv :=
  ⟨nil_wf, Nat.zero_le _, fun _ => ⟨by decide, nofun⟩⟩

theorem getV_reset (r : Nibble) : State.reset.getV r = 0#8 := by
  simp [State.getV, State.reset]

/-- Settles O14: memory after reset is the font of 80 bytes, each compared with its glyph's row, and
reads 0 past its end. -/
theorem resetMeetsInvariant : Obligations.ResetMeetsInvariant := by
  unfold Obligations.ResetMeetsInvariant
  refine ⟨reset_inv, rfl, rfl, getV_reset, rfl, rfl, rfl, rfl, rfl, get_clear, ?font, ?past⟩
  case font =>
    simp only [reset_mem_read]
    intro d r hd hr
    revert r
    revert d
    decide
  case past =>
    intro a ha
    rw [reset_mem_read]
    exact List.getD_eq_default _ _ ha

end Sys2Proof.Machine
end

section
/-!
PROOFS. The execute stage component by component (R20): the fault an instruction raises, or else
what it leaves in each component and the advance it selects. `exec_eq` ties these functions to
`exec`; what every instruction does or leaves alone is then read off one component at a time.
-/

namespace Sys2Proof.Machine

/-! ### The fault raised (R300) -/

/-- The fault of an access to the `n` bytes from `I` (R65, R304). -/
def blockFault (s : State) (n : Nat) : Option FaultCause :=
  if 0 < n ∧ 4096 < s.i.toNat + n then some (.memoryOutOfRange (.addr (max s.i.toNat 4096)))
  else none

theorem blockFault_eq_none_iff {s : State} {n : Nat} :
    blockFault s n = none ↔ (0 < n → s.i.toNat + n ≤ 4096) := by
  simp [blockFault]

/-- The first invalid address is `I` itself or the end of memory (R65). -/
theorem blockFault_of_gt {s : State} {n : Nat} (hn : 0 < n) (h : 4096 < s.i.toNat + n) :
    blockFault s n =
      some (.memoryOutOfRange (.addr (if 4096 ≤ s.i.toNat then s.i.toNat else 4096))) := by
  rw [← max_def']
  exact if_pos ⟨hn, h⟩

/-- The fault of a key index above 15 (R305). -/
def keyFault (k : Byte) : Option FaultCause :=
  if 15 < k.toNat then some (.invalidKeyIndex k) else none

/-- The fault an instruction raises (R300 to R305). -/
def faultOf : Instr → State → Option FaultCause
  | .ret, s => if s.stack = [] then some (.stackUnderflow s.pc) else none
  | .call _, s => if 16 ≤ s.stack.length then some (.memoryOutOfRange .stackFull) else none
  | .fontChar x, s => if 15 < (s.getV x).toNat then some (.invalidFontIndex (s.getV x)) else none
  | .skipKeyPressed x, s => keyFault (s.getV x)
  | .skipKeyNotPressed x, s => keyFault (s.getV x)
  | .bcd _, s => blockFault s 3
  | .dump x, s => blockFault s (x.toNat + 1)
  | .load x, s => blockFault s (x.toNat + 1)
  | .draw _ _ n, s => blockFault s n.toNat
  | _, _ => none

/-! ### The components after an instruction that raises none -/

/-- The advance an instruction selects (R143). -/
def advanceOf : Instr → State → Advance
  | .jump nnn, _ => .jump (addressOperand nnn)
  | .call nnn, _ => .jump (addressOperand nnn)
  | .jumpOffset nnn, s => .jump (offsetTarget nnn s)
  | .ret, s => .jump (s.stack.headD 0#16)
  | .skipEqConst x nn, s => skipIf (s.getV x == nn)
  | .skipNeConst x nn, s => skipIf (s.getV x != nn)
  | .skipEqReg x y, s => skipIf (s.getV x == s.getV y)
  | .skipNeReg x y, s => skipIf (s.getV x != s.getV y)
  | .skipKeyPressed x, s => skipIf (isPressed s.keys ((s.getV x).setWidth 4) == true)
  | .skipKeyNotPressed x, s => skipIf (isPressed s.keys ((s.getV x).setWidth 4) == false)
  | .awaitInput _, s => if firstPressed s.keys = none then .await else .normal
  | _, _ => .normal

/-- The memory after an instruction: LD B and LD [I], Vx write a block at `I` (R213, R214). -/
def memAfter : Instr → State → Memory
  | .bcd x, s => s.mem.writeAll s.i.toNat (bcdDigits (s.getV x))
  | .dump x, s => s.mem.writeAll s.i.toNat (s.getBlock x)
  | _, s => s.mem

/-- The state with the general registers an instruction leaves, and all else as it was (R24). -/
def withRegsAfter : Instr → State → State
  | .setConst x nn, s => s.setV x nn
  | .addConst x nn, s => s.setV x (s.getV x + nn)
  | .setReg x y, s => s.setV x (s.getV y)
  | .orReg x y, s => s.setV x (s.getV x ||| s.getV y)
  | .andReg x y, s => s.setV x (s.getV x &&& s.getV y)
  | .xorReg x y, s => s.setV x (s.getV x ^^^ s.getV y)
  | .addReg x y, s => s.setResultAndFlag x (s.getV x + s.getV y) (carryOf (s.getV x) (s.getV y))
  | .sub x y, s => s.setResultAndFlag x (s.getV x - s.getV y) (notBorrowOf (s.getV x) (s.getV y))
  | .shiftRight x, s => s.setResultAndFlag x (s.getV x >>> 1) (lowBitOf (s.getV x))
  | .subReverse x y, s =>
    s.setResultAndFlag x (s.getV y - s.getV x) (notBorrowOf (s.getV y) (s.getV x))
  | .shiftLeft x, s => s.setResultAndFlag x (s.getV x <<< 1) (highBitOf (s.getV x))
  | .random x nn, s => s.setV x (Config.rng s.draws &&& nn)
  | .draw x y n, s => s.setV vf (flagByte (drawnCanvas x y n s).2)
  | .getDelay x, s => s.setV x s.dt
  | .awaitInput x, s =>
    match firstPressed s.keys with
    | none => s
    | some k => s.setV x (k.setWidth 8)
  | .load x, s => s.setBlock (blockBytes s (x.toNat + 1))
  | _, s => s

/-- `I` after an instruction (R26). -/
def iAfter : Instr → State → Word
  | .setI nnn, _ => addressOperand nnn
  | .addI x, s => s.i + (s.getV x).setWidth 16
  | .fontChar x, s => BitVec.ofNat 16 (5 * (s.getV x).toNat)
  | _, s => s.i

/-- The call stack after an instruction (R30). -/
def stackAfter : Instr → State → List Word
  | .call _, s => (s.pc + 2#16) :: s.stack
  | .ret, s => s.stack.tail
  | _, s => s.stack

/-- `DT` after an instruction (R32). -/
def dtAfter : Instr → State → Byte
  | .setDelay x, s => s.getV x
  | _, s => s.dt

/-- `ST` after an instruction (R33). -/
def stAfter : Instr → State → Byte
  | .setSound x, s => s.getV x
  | _, s => s.st

/-- The framebuffer after an instruction (R36). -/
def fbAfter : Instr → State → Framebuffer
  | .clearScreen, _ => Framebuffer.clear
  | .draw x y n, s => (drawnCanvas x y n s).1
  | _, s => s.fb

/-- The model's draw counter after an instruction (R193). -/
def drawsAfter : Instr → State → Nat
  | .random _ _, s => s.draws + 1
  | _, s => s.draws

/-- The state an instruction leaves when it raises no fault. -/
def effect (i : Instr) (s : State) : State where
  mem := memAfter i s
  v := (withRegsAfter i s).v
  i := iAfter i s
  pc := nextPc s.pc (advanceOf i s)
  stack := stackAfter i s
  dt := dtAfter i s
  st := stAfter i s
  latch := s.latch
  fb := fbAfter i s
  keys := s.keys
  schedule := s.schedule
  draws := drawsAfter i s

/-! ### The execute stage -/

/-- A meaning given by the condition under which it raises no fault, as its fault and its effect. -/
theorem ite_next_raise {P Q : Prop} [Decidable P] [Decidable Q] (h : P ↔ ¬ Q) (t s : State)
    (c : FaultCause) :
    (if P then .next t else .next (raise c s) : Host.Outcome State Fault Refusal) =
      .next ((if Q then some c else none).elim t (raise · s)) := by
  by_cases hq : Q
  · rw [if_neg (fun hp => h.mp hp hq), if_pos hq]; rfl
  · rw [if_pos (h.mpr hq), if_neg hq]; rfl

theorem exec_ret_eq (s : State) :
    exec .ret s = .next ((faultOf .ret s).elim (effect .ret s) (raise · s)) := by
  have heffect :
      effect .ret s = { s with stack := s.stack.tail, pc := s.stack.headD 0#16 } := rfl
  rw [heffect]
  rcases hs : s.stack with _ | ⟨w, rest⟩
  · rw [exec, execRet_nil hs, faultOf, if_pos hs]; rfl
  · rw [exec, execRet_cons hs, faultOf, if_neg (by simp [hs])]; rfl

theorem exec_awaitInput_eq (x : Nibble) (s : State) :
    exec (.awaitInput x) s = .next (effect (.awaitInput x) s) := by
  have heffect : effect (.awaitInput x) s =
      { s with v := (withRegsAfter (.awaitInput x) s).v }.advance (advanceOf (.awaitInput x) s) :=
    rfl
  rw [heffect, withRegsAfter, advanceOf]
  rcases hk : firstPressed s.keys with _ | k
  · rw [exec, execAwaitInput_none hk]; rfl
  · rw [exec, execAwaitInput_some hk]; rfl

/-- The next state every instruction answers: the faulted one, or its effect. -/
theorem exec_eq (i : Instr) (s : State) :
    exec i s = .next ((faultOf i s).elim (effect i s) (raise · s)) := by
  cases i
  case ret => exact exec_ret_eq s
  case awaitInput x => exact exec_awaitInput_eq x s
  case call nnn => exact (execCall_eq nnn s).trans (ite_next_raise (by omega) _ _ _)
  case fontChar x => exact (execFontChar_eq x s).trans (ite_next_raise (by omega) _ _ _)
  case bcd x => exact (execBcd_eq x s).trans (ite_next_raise (by omega) _ _ _)
  case dump x => exact (execDump_eq x s).trans (ite_next_raise (by omega) _ _ _)
  case load x => exact (execLoad_eq x s).trans (ite_next_raise (by omega) _ _ _)
  case draw x y n => exact (execDraw_eq x y n s).trans (ite_next_raise (by omega) _ _ _)
  case skipKeyPressed x => exact (skipOnKey_eq x true s).trans (ite_next_raise (by omega) _ _ _)
  case skipKeyNotPressed x =>
    exact (skipOnKey_eq x false s).trans (ite_next_raise (by omega) _ _ _)
  case addReg | sub | shiftRight | subReverse | shiftLeft =>
    exact congrArg (fun t => Host.Outcome.next (State.advance t .normal))
      (setResultAndFlag_eq s _ _ _)
  all_goals rfl

theorem exec_of_faultOf_none {i : Instr} {s : State} (h : faultOf i s = none) :
    exec i s = .next (effect i s) := by
  rw [exec_eq, h, Option.elim_none]

theorem exec_of_faultOf_some {i : Instr} {s : State} {c : FaultCause} (h : faultOf i s = some c) :
    exec i s = .next (raise c s) := by
  rw [exec_eq, h, Option.elim_some]

theorem exists_faulted_of_faultOf_some {i : Instr} {s : State} {c : FaultCause}
    (h : faultOf i s = some c) : ∃ t, exec i s = .next t ∧ t.latch = .faulted c :=
  ⟨_, exec_of_faultOf_some h, raise_latch c s⟩

/-- What a next state of the execute stage can be: the faulted one, or the effect. -/
theorem exec_cases {i : Instr} {s t : State} (h : exec i s = .next t) :
    (∃ c, faultOf i s = some c ∧ t = raise c s) ∨ (faultOf i s = none ∧ t = effect i s) := by
  rcases hf : faultOf i s with _ | c
  · rw [exec_of_faultOf_none hf] at h; cases h; exact .inr ⟨rfl, rfl⟩
  · rw [exec_of_faultOf_some hf] at h; cases h; exact .inl ⟨c, rfl, rfl⟩

theorem not_running_raise (c : FaultCause) (s : State) : ¬ (raise c s).Running := by
  simp [State.Running]

theorem eq_effect_of_running {i : Instr} {s t : State} (h : exec i s = .next t) (ht : t.Running) :
    faultOf i s = none ∧ t = effect i s := by
  rcases exec_cases h with ⟨c, -, rfl⟩ | heffect
  · exact absurd ht (not_running_raise c s)
  · exact heffect

/-- From a running core the latch tells the fault raised. -/
theorem latch_eq_faulted_iff {i : Instr} {s t : State} (hs : s.Running) (h : exec i s = .next t)
    (c : FaultCause) : t.latch = .faulted c ↔ faultOf i s = some c := by
  rcases exec_cases h with ⟨c', hf, rfl⟩ | ⟨hf, rfl⟩
  · rw [hf, raise_latch, Latch.faulted.injEq, Option.some.injEq]
  · rw [hf, show (effect i s).latch = .running from hs]
    exact iff_of_false nofun nofun

/-- Settles O12: the answer of `exec_eq` is a next state. -/
theorem everyInstructionAnswersANextState : Obligations.EveryInstructionAnswersANextState := by
  unfold Obligations.EveryInstructionAnswersANextState
  exact fun i s => ⟨_, exec_eq i s⟩

/-- Settles O11: the latch tells the fault raised, and `faultOf` gives each instruction's. -/
theorem everyInstructionRaisesItsFaultsOnly :
    Obligations.EveryInstructionRaisesItsFaultsOnly := by
  unfold Obligations.EveryInstructionRaisesItsFaultsOnly
  intro i s t c hs h
  rw [latch_eq_faulted_iff hs h]
  cases i
  case ret | call | fontChar => simp [faultOf, eq_comm]
  case skipKeyPressed | skipKeyNotPressed => simp [faultOf, keyFault, eq_comm]
  case bcd => simp [faultOf, blockFault, eq_comm]
  case dump | load => simp [faultOf, blockFault, eq_comm, Nat.add_assoc]
  case draw => simp [faultOf, blockFault, eq_comm, and_assoc]
  all_goals exact iff_of_false nofun id

/-! ### The advance selected (R143 to R147) -/

theorem offsetTarget_toNat (nnn : Addr12) (s : State) :
    (offsetTarget nnn s).toNat = nnn.toNat + (s.getV 0x0#4).toNat := by
  have hbase := nnn.isLt
  have hoffset := (s.getV 0x0#4).isLt
  rw [offsetTarget, BitVec.toNat_add, addressOperand_toNat, BitVec.toNat_setWidth_of_le (by decide)]
  omega

theorem nextPc_skipIf (pc : Word) (b : Bool) :
    nextPc pc (skipIf b) = if b then pc + 4#16 else pc + 2#16 := by
  cases b <;> rfl

/-- The key a register's value of at most 15 names is the bit of that number (R46). -/
theorem isPressed_setWidth (keys : BitVec 16) {k : Byte} (hk : k.toNat ≤ 15) :
    isPressed keys (k.setWidth 4) = keys.getLsbD k.toNat := by
  rw [isPressed, BitVec.toNat_setWidth, Nat.mod_eq_of_lt (by omega)]

theorem nextPc_skipIf_pressed (pc : Word) (keys : BitVec 16) {k : Byte} (hk : k.toNat ≤ 15) :
    nextPc pc (skipIf (isPressed keys (k.setWidth 4) == true)) =
      if keys.getLsbD k.toNat then pc + 4#16 else pc + 2#16 := by
  rw [nextPc_skipIf, isPressed_setWidth keys hk]
  cases keys.getLsbD k.toNat <;> rfl

theorem nextPc_skipIf_released (pc : Word) (keys : BitVec 16) {k : Byte} (hk : k.toNat ≤ 15) :
    nextPc pc (skipIf (isPressed keys (k.setWidth 4) == false)) =
      if keys.getLsbD k.toNat then pc + 2#16 else pc + 4#16 := by
  rw [nextPc_skipIf, isPressed_setWidth keys hk]
  cases keys.getLsbD k.toNat <;> rfl

theorem keyFault_eq_none_iff (k : Byte) : keyFault k = none ↔ k.toNat ≤ 15 := by
  simp [keyFault]

theorem firstPressed_eq_none_iff_zero (keys : BitVec 16) :
    firstPressed keys = none ↔ keys = 0#16 := by
  rw [firstPressed_eq_none_iff]
  refine ⟨fun hup => BitVec.eq_of_getLsbD_eq fun k hk => ?_, fun h k => by simp [h, isPressed]⟩
  simpa [isPressed, Nat.mod_eq_of_lt hk] using hup (BitVec.ofNat 4 k)

/-- Settles O9: `pc` afterwards is where the advance selected leads. -/
theorem everyInstructionSelectsItsPcAdvance :
    Obligations.EveryInstructionSelectsItsPcAdvance := by
  unfold Obligations.EveryInstructionSelectsItsPcAdvance
  intro i s t _ h ht
  obtain ⟨hf, rfl⟩ := eq_effect_of_running h ht
  cases i
  case jump nnn | call nnn => exact addressOperand_toNat nnn
  case jumpOffset nnn => exact offsetTarget_toNat nnn s
  case ret =>
    have hne : s.stack ≠ [] := by simpa [faultOf] using hf
    obtain ⟨w, rest, hs⟩ := List.exists_cons_of_ne_nil hne
    simp [effect, advanceOf, hs]
  case skipEqConst x nn => exact (nextPc_skipIf s.pc _).trans (by simp)
  case skipNeConst x nn => exact (nextPc_skipIf s.pc _).trans (by simp)
  case skipEqReg x y => exact (nextPc_skipIf s.pc _).trans (by simp)
  case skipNeReg x y => exact (nextPc_skipIf s.pc _).trans (by simp)
  case skipKeyPressed x => exact nextPc_skipIf_pressed s.pc s.keys ((keyFault_eq_none_iff _).mp hf)
  case skipKeyNotPressed x =>
    exact nextPc_skipIf_released s.pc s.keys ((keyFault_eq_none_iff _).mp hf)
  case awaitInput x =>
    simp only [effect, advanceOf, firstPressed_eq_none_iff_zero]
    split <;> simp
  all_goals exact nextPc_normal s.pc

/-! ### What an instruction leaves as it was (R24, R26, R30, R32, R33, R36) -/

theorem getV_effect_of_not_writesReg {i : Instr} {r : Nibble} (hr : ¬ writesReg i r) (s : State) :
    (effect i s).getV r = s.getV r := by
  change (withRegsAfter i s).getV r = s.getV r
  cases i
  case setConst | addConst | setReg | orReg | andReg | xorReg | random | draw | getDelay =>
    exact getV_setV_ne s _ hr
  case addReg | sub | shiftRight | subReverse | shiftLeft =>
    exact (onlyRegsAndPc_setResultAndFlag_advance s _ _ _ .normal).1 r hr
  case awaitInput =>
    rw [withRegsAfter]
    split
    · rfl
    · exact getV_setV_ne s _ hr
  case load x =>
    rw [withRegsAfter, getV_setBlock, blockBytes_length, if_neg]
    exact fun hlt => hr (Nat.le_of_lt_succ hlt)
  all_goals rfl

theorem stackAfter_ne {i : Instr} {s : State} (h : stackAfter i s ≠ s.stack) :
    i = .ret ∨ ∃ nnn, i = .call nnn := by
  cases i
  case ret => exact .inl rfl
  case call nnn => exact .inr ⟨nnn, rfl⟩
  all_goals exact absurd rfl h

theorem fbAfter_ne {i : Instr} {s : State} (h : fbAfter i s ≠ s.fb) :
    i = .clearScreen ∨ ∃ x y n, i = .draw x y n := by
  cases i
  case clearScreen => exact .inl rfl
  case draw x y n => exact .inr ⟨x, y, n, rfl⟩
  all_goals exact absurd rfl h

theorem iAfter_ne {i : Instr} {s : State} (h : iAfter i s ≠ s.i) :
    (∃ nnn, i = .setI nnn) ∨ (∃ x, i = .addI x) ∨ ∃ x, i = .fontChar x := by
  cases i
  case setI nnn => exact .inl ⟨nnn, rfl⟩
  case addI x => exact .inr (.inl ⟨x, rfl⟩)
  case fontChar x => exact .inr (.inr ⟨x, rfl⟩)
  all_goals exact absurd rfl h

theorem dtAfter_ne {i : Instr} {s : State} (h : dtAfter i s ≠ s.dt) : ∃ x, i = .setDelay x := by
  cases i
  case setDelay x => exact ⟨x, rfl⟩
  all_goals exact absurd rfl h

theorem stAfter_ne {i : Instr} {s : State} (h : stAfter i s ≠ s.st) : ∃ x, i = .setSound x := by
  cases i
  case setSound x => exact ⟨x, rfl⟩
  all_goals exact absurd rfl h

theorem drawsAfter_ne {i : Instr} {s : State} (h : drawsAfter i s ≠ s.draws) :
    ∃ x nn, i = .random x nn := by
  cases i
  case random x nn => exact ⟨x, nn, rfl⟩
  all_goals exact absurd rfl h

theorem sameMemOutside_writeAll (s t : State) {a n : Nat} {bs : List Byte} (hn : bs.length = n)
    (ht : t.mem = s.mem.writeAll a bs) : SameMemOutside a n s t := by
  intro q hq
  rw [ht, read_writeAll_outside s.mem (hn ▸ hq)]

/-- Settles O10: the effect keeps each component that its instruction does not write. -/
theorem everyInstructionKeepsWhatItDoesNotWrite :
    Obligations.EveryInstructionKeepsWhatItDoesNotWrite := by
  unfold Obligations.EveryInstructionKeepsWhatItDoesNotWrite
  intro i s t _ h ht
  obtain ⟨-, rfl⟩ := eq_effect_of_running h ht
  refine ⟨fun r hr => getV_effect_of_not_writesReg hr s, ?mem, stackAfter_ne, fbAfter_ne,
    iAfter_ne, dtAfter_ne, stAfter_ne, drawsAfter_ne, rfl, rfl⟩
  case mem =>
    cases i
    case bcd x => exact sameMemOutside_writeAll s _ rfl rfl
    case dump x => exact sameMemOutside_writeAll s _ (getBlock_length s x) rfl
    all_goals rfl

/-! ### The timers are not read (R32, R33) -/

theorem faultOf_setTimers (i : Instr) (s : State) (d e : Byte) :
    faultOf i { s with dt := d, st := e } = faultOf i s := by
  cases i <;> rfl

theorem setResultAndFlag_v_setTimers (s : State) (d e : Byte) (x : Nibble) (r : Byte) (f : Bool) :
    ({ s with dt := d, st := e }.setResultAndFlag x r f).v = (s.setResultAndFlag x r f).v := by
  unfold State.setResultAndFlag
  split <;> rfl

theorem withRegsAfter_v_setTimers {i : Instr} {s : State} {d : Byte}
    (hd : ∀ x, i = .getDelay x → d = s.dt) (e : Byte) :
    (withRegsAfter i { s with dt := d, st := e }).v = (withRegsAfter i s).v := by
  cases i
  case getDelay x => rw [hd x rfl]; rfl
  case addReg | sub | shiftRight | subReverse | shiftLeft =>
    exact setResultAndFlag_v_setTimers s d e _ _ _
  case awaitInput =>
    simp only [withRegsAfter]
    split <;> rfl
  all_goals rfl

/-- The effect from other timers is the same but for the timers; `LD Vx, DT` alone reads one. -/
theorem effect_setTimers {i : Instr} {s : State} {d : Byte}
    (hd : ∀ x, i = .getDelay x → d = s.dt) (e : Byte) :
    { effect i { s with dt := d, st := e } with dt := (effect i s).dt, st := (effect i s).st } =
      effect i s := by
  have hregs := withRegsAfter_v_setTimers hd e
  have hrest : memAfter i { s with dt := d, st := e } = memAfter i s ∧
      iAfter i { s with dt := d, st := e } = iAfter i s ∧
      advanceOf i { s with dt := d, st := e } = advanceOf i s ∧
      stackAfter i { s with dt := d, st := e } = stackAfter i s ∧
      fbAfter i { s with dt := d, st := e } = fbAfter i s ∧
      drawsAfter i { s with dt := d, st := e } = drawsAfter i s := by
    cases i <;> exact ⟨rfl, rfl, rfl, rfl, rfl, rfl⟩
  obtain ⟨hmem, hi, hadvance, hstack, hfb, hdraws⟩ := hrest
  simp only [effect, hregs, hmem, hi, hadvance, hstack, hfb, hdraws]

/-- Settles O44: the fault raised does not depend on the timers, and the effect depends on them in
the timers alone. -/
theorem timersAreReadOnlyByGetDelay : Obligations.TimersAreReadOnlyByGetDelay := by
  unfold Obligations.TimersAreReadOnlyByGetDelay
  intro i s t t' d e hd h h'
  have hfault := faultOf_setTimers i s d e
  rcases exec_cases h with ⟨c, hf, rfl⟩ | ⟨hf, rfl⟩
  · rw [exec_of_faultOf_some (hfault.trans hf)] at h'
    cases h'
    exact ⟨rfl, fun hrun => absurd hrun (not_running_raise c s)⟩
  · rw [exec_of_faultOf_none (hfault.trans hf)] at h'
    cases h'
    exact ⟨rfl, fun _ => effect_setTimers hd e⟩

/-! ### The invariant (R31, R149) -/

theorem memAfter_wf {i : Instr} {s : State} (hf : faultOf i s = none) (hmem : s.mem.wf) :
    (memAfter i s).wf := by
  cases i
  case bcd x => exact writeAll_wf hmem (blockFault_eq_none_iff.mp hf (Nat.succ_pos 2))
  case dump x =>
    have hblock := blockFault_eq_none_iff.mp hf (Nat.succ_pos _)
    exact writeAll_wf hmem (by rwa [getBlock_length])
  all_goals exact hmem

theorem stackAfter_length_le {i : Instr} {s : State} (hf : faultOf i s = none)
    (hlen : s.stack.length ≤ 16) : (stackAfter i s).length ≤ 16 := by
  cases i
  case call =>
    have hroom : s.stack.length < 16 := by simpa [faultOf] using hf
    exact hroom
  case ret => exact List.length_tail.trans_le ((Nat.sub_le _ 1).trans hlen)
  all_goals exact hlen

/-- The stack afterwards holds entries from before and, after a call, the address of the next
word. -/
theorem eq_or_mem_of_mem_stackAfter {i : Instr} {s : State} {w : Word}
    (hw : w ∈ stackAfter i s) : w = s.pc + 2#16 ∨ w ∈ s.stack := by
  cases i
  case call => exact List.mem_cons.mp hw
  case ret => exact .inr (List.mem_of_mem_tail hw)
  all_goals exact .inr hw

theorem skipIf_ne_jump (b : Bool) (target : Word) : skipIf b ≠ .jump target := by
  cases b <;> nofun

theorem toNat_le_of_advanceOf_eq_jump {i : Instr} {s : State} {target : Word}
    (hstack : ∀ w ∈ s.stack, w.toNat ≤ 4096) (h : advanceOf i s = .jump target) :
    target.toNat ≤ 0x10FE := by
  cases i
  case jump nnn | call nnn =>
    cases h
    rw [addressOperand_toNat]
    omega
  case jumpOffset nnn =>
    cases h
    rw [offsetTarget_toNat]
    omega
  case ret =>
    cases h
    rcases hs : s.stack with _ | ⟨w, rest⟩
    · decide
    · exact (hstack w (by simp [hs])).trans (by decide)
  case skipEqConst | skipNeConst | skipEqReg | skipNeReg | skipKeyPressed | skipKeyNotPressed =>
    exact absurd h (skipIf_ne_jump _ target)
  case awaitInput =>
    rw [advanceOf] at h
    split at h <;> cases h
  all_goals cases h

/-- From a fetchable `pc` only a jump can lead far, and its target is bounded (R149). -/
theorem nextPc_toNat_le {pc : Word} {a : Advance} (hpc : pc.toNat ≤ 4094)
    (hjump : ∀ target, a = .jump target → target.toNat ≤ 0x10FE) :
    (nextPc pc a).toNat ≤ 0x10FE := by
  cases a
  case normal => rw [nextPc_normal]; bv_omega
  case skip => rw [nextPc_skip]; bv_omega
  case jump target => exact hjump target rfl
  case await => exact hpc.trans (by decide)

theorem effect_inv {i : Instr} {s : State} (hs : s.Inv) (hrun : s.Running)
    (hpc : s.pc.toNat ≤ 4094) (hf : faultOf i s = none) : (effect i s).Inv := by
  obtain ⟨hmem, hlen, hbounds⟩ := hs
  obtain ⟨-, hstack⟩ := hbounds hrun
  refine ⟨memAfter_wf hf hmem, stackAfter_length_le hf hlen, fun _ => ⟨?pc, fun w hw => ?entry⟩⟩
  case pc => exact nextPc_toNat_le hpc fun _ => toNat_le_of_advanceOf_eq_jump hstack
  case entry =>
    rcases eq_or_mem_of_mem_stackAfter hw with hnext | hold
    · rw [hnext, BitVec.toNat_add_of_lt (by simp; omega)]
      exact Nat.add_le_add_right hpc 2
    · exact hstack w hold

/-- A faulted state is well-typed, which is all the invariant asks of it (R306; log 26). -/
theorem raise_inv (c : FaultCause) (s : State) : (raise c s).Inv := by
  refine ⟨ofBytes_wf _, ?length, fun hrun => absurd hrun (not_running_raise c s)⟩
  case length =>
    rw [raise, List.length_map, List.length_range]
    exact Nat.le_of_lt_succ (Nat.mod_lt _ (by decide))

theorem exec_inv {i : Instr} {s t : State} (hs : s.Inv) (hrun : s.Running)
    (hpc : s.pc.toNat ≤ 4094) (h : exec i s = .next t) : t.Inv := by
  rcases exec_cases h with ⟨c, -, rfl⟩ | ⟨hf, rfl⟩
  · exact raise_inv c s
  · exact effect_inv hs hrun hpc hf

theorem cycleStep_inv {s t : State} (hs : s.Inv) (h : cycleStep s = .next t) : t.Inv := by
  rcases cycleStep_cases s with ⟨c, -, hstop⟩ | ⟨-, c, -, hraise⟩ | ⟨hrun, i, hi, hexec⟩
  · rw [hstop] at h; cases h
  · rw [hraise] at h; cases h; exact raise_inv c s
  · exact exec_inv hs hrun (fetchInstr_ok hi).1 (hexec.symm.trans h)

theorem tickStep_inv {s t : State} (hs : s.Inv) (h : tickStep s = .next t) : t.Inv := by
  unfold tickStep at h
  split at h <;> cases h
  exact hs

theorem loadStep_inv {im : List Byte} {s t : State} (h : loadStep im s = .next t) : t.Inv := by
  obtain ⟨hfits, rfl⟩ := loadStep_next h
  refine ⟨loadedState_mem_wf hfits s, Nat.zero_le _, fun _ => ⟨?pc, nofun⟩⟩
  case pc => rw [loadedState_pc]; decide

theorem perform_inv {a : HostAction} {s t : State} (hs : s.Inv) (h : perform a s = .next t) :
    t.Inv := by
  cases a
  case cycle => exact cycleStep_inv hs h
  case tick => exact tickStep_inv hs h
  case press | release => cases h; exact hs
  case load im => exact loadStep_inv h

/-- Settles O13: the invariant does not speak of the schedule, so a step keeps it when the host
action it performs does. -/
theorem stepKeepsInvariant : Obligations.StepKeepsInvariant := by
  unfold Obligations.StepKeepsInvariant
  intro s t hs h
  have hperform : ({ s with schedule := s.schedule.tail } : State).Inv := hs
  exact perform_inv hperform h

/-! ### The tone (R323) -/

theorem tone_congr {s t : State} (h : t.st = s.st) : t.tone = s.tone := by
  rw [State.tone, State.tone, h]

/-- Settles O43: the tone is read off ST, which a tick takes one from and of the instructions only
LD ST, Vx writes. -/
theorem toneChangesOnlyBySoundTimer : Obligations.ToneChangesOnlyBySoundTimer := by
  unfold Obligations.ToneChangesOnlyBySoundTimer
  refine ⟨fun s => decide_eq_true_iff, fun s hrun hnext => ?tick, fun i s t _ h ht hi => ?exec⟩
  case tick =>
    refine ⟨_, (step_of_nextAction hnext).trans (tickStep_running hrun), ?_⟩
    rw [State.tone, decide_eq_true_iff, tickTimer_toNat, Nat.sub_pos_iff_lt]
  case exec =>
    obtain ⟨-, rfl⟩ := eq_effect_of_running h ht
    refine tone_congr (by_contra fun hst => ?_)
    obtain ⟨x, hx⟩ := stAfter_ne hst
    exact hi x hx

end Sys2Proof.Machine
end

section
/-!
PROOFS. Control transfer with the stack and with an offset (R161, R162, R167), the key skips (R280,
R281) and SYS (R283).
-/

namespace Sys2Proof.Machine

/-! ### What `exec` answers -/

theorem exec_sys (nnn : Addr12) (s : State) : exec (.sys nnn) s = .next (s.advance .normal) := rfl

theorem exec_call (nnn : Addr12) (s : State) : exec (.call nnn) s = execCall nnn s := rfl

theorem exec_ret (s : State) : exec .ret s = execRet s := rfl

theorem exec_jumpOffset (nnn : Addr12) (s : State) :
    exec (.jumpOffset nnn) s = .next (s.advance (.jump (offsetTarget nnn s))) := rfl

/-! ### The call stack -/

/-- A write of the stack and of `pc`: the frame both leave as it was. -/
theorem setStack_setPc_frame (stack : List Word) (pc : Word) (s : State) :
    let t := { s with stack := stack, pc := pc }
    SameRegsBut (fun _ => False) s t ∧ SameMem s t ∧ t.i = s.i ∧ t.fb = s.fb ∧
      SameTimersAndPorts s t ∧ t.draws = s.draws :=
  ⟨fun r _ => getV_congr rfl r, fun _ => rfl, rfl, rfl, ⟨rfl, rfl, rfl, rfl, rfl⟩, rfl⟩

/-- Settles O17: CALL is one condition on the depth of the stack. -/
theorem callPushesReturnAddress : Obligations.CallPushesReturnAddress := by
  unfold Obligations.CallPushesReturnAddress
  refine fun nnn s => ⟨fun hroom => ?pushes, fun hfull => ?faults⟩
  case pushes =>
    rw [exec_call, execCall_eq, if_pos hroom]
    exact ⟨_, rfl, rfl, addressOperand_toNat nnn, setStack_setPc_frame _ _ s⟩
  case faults =>
    rw [exec_call, execCall_eq, if_neg (Nat.not_lt_of_le hfull)]
    exact ⟨_, rfl, raise_latch _ s⟩

/-- Settles O18: RET is a case split on the stack. -/
theorem retPopsIntoPc : Obligations.RetPopsIntoPc := by
  unfold Obligations.RetPopsIntoPc
  refine fun s => ⟨fun w rest hstack => ?pops, fun hempty => ?faults⟩
  case pops =>
    rw [exec_ret, execRet_cons hstack]
    exact ⟨_, rfl, rfl, rfl, setStack_setPc_frame _ _ s⟩
  case faults =>
    rw [exec_ret, execRet_nil hempty]
    exact ⟨_, rfl, raise_latch _ s⟩

/-- Settles O19: RET pops what CALL pushed. -/
theorem retUndoesCall : Obligations.RetUndoesCall := by
  unfold Obligations.RetUndoesCall
  intro nnn s hroom
  obtain ⟨t, hcall, hpushed, -⟩ := (callPushesReturnAddress nnn s).1 hroom
  obtain ⟨u, hret, hpc, hstack, -⟩ := (retPopsIntoPc t).1 _ _ hpushed
  exact ⟨t, u, hcall, hret, hpc, hstack⟩

/-! ### The jump with an offset, and SYS -/

/-- Settles O21: the sum of a 12-bit base and a byte does not wrap. -/
theorem jumpOffsetAddsV0 : Obligations.JumpOffsetAddsV0 := by
  unfold Obligations.JumpOffsetAddsV0
  intro nnn s
  have htarget := offsetTarget_toNat nnn s
  refine ⟨_, exec_jumpOffset nnn s, htarget, ?bound, onlyPc_advance s _⟩
  case bound =>
    rw [advance_pc, nextPc_jump, htarget]
    omega

/-- Settles O47: group 0 is SYS but for two words, and SYS only advances. -/
theorem sysIsANoOp : Obligations.SysIsANoOp := by
  unfold Obligations.SysIsANoOp
  refine ⟨fun w hc hcls hret => ?decodes, fun nnn s => ?advances⟩
  case decodes => rw [decode_of_fieldC_eq_zero hc, decodeGroup0_sys hcls hret]
  case advances => exact ⟨_, exec_sys nnn s, nextPc_normal s.pc, onlyPc_advance s .normal⟩

/-! ### The key skips -/

/-- Settles O45: a value of at most 15 names a key, whose state selects the advance; a value above
it is the fault. -/
theorem keySkipsReadTheNamedKey : Obligations.KeySkipsReadTheNamedKey := by
  unfold Obligations.KeySkipsReadTheNamedKey
  refine fun x s => ⟨fun hkey => ⟨?pressed, ?released⟩,
    fun hover => ⟨?pressedFaults, ?releasedFaults⟩⟩
  case pressed =>
    exact ⟨_, exec_of_faultOf_none ((keyFault_eq_none_iff _).mpr hkey), onlyPc_setPc s _,
      nextPc_skipIf_pressed s.pc s.keys hkey⟩
  case released =>
    exact ⟨_, exec_of_faultOf_none ((keyFault_eq_none_iff _).mpr hkey), onlyPc_setPc s _,
      nextPc_skipIf_released s.pc s.keys hkey⟩
  case pressedFaults | releasedFaults => exact exists_faulted_of_faultOf_some (if_pos hover)

end Sys2Proof.Machine
end

section
/-!
PROOFS. Results without a flag (R183 to R187), the shifts with the bit shifted out (R190, R192) and
the masked draw (R193).
-/

namespace Sys2Proof.Machine

/-! ### What `exec` answers -/

theorem exec_addConst (x : Nibble) (nn : Byte) (s : State) :
    exec (.addConst x nn) s = writeResult x (s.getV x + nn) s := rfl

theorem exec_setReg (x y : Nibble) (s : State) :
    exec (.setReg x y) s = writeResult x (s.getV y) s := rfl

theorem exec_orReg (x y : Nibble) (s : State) :
    exec (.orReg x y) s = writeResult x (s.getV x ||| s.getV y) s := rfl

theorem exec_andReg (x y : Nibble) (s : State) :
    exec (.andReg x y) s = writeResult x (s.getV x &&& s.getV y) s := rfl

theorem exec_xorReg (x y : Nibble) (s : State) :
    exec (.xorReg x y) s = writeResult x (s.getV x ^^^ s.getV y) s := rfl

theorem exec_shiftRight (x : Nibble) (s : State) :
    exec (.shiftRight x) s = writeResultAndFlag x (s.getV x >>> 1) (lowBitOf (s.getV x)) s := rfl

theorem exec_shiftLeft (x : Nibble) (s : State) :
    exec (.shiftLeft x) s = writeResultAndFlag x (s.getV x <<< 1) (highBitOf (s.getV x)) s := rfl

theorem exec_random (x : Nibble) (nn : Byte) (s : State) :
    exec (.random x nn) s =
      writeResult x (Config.rng s.draws &&& nn) { s with draws := s.draws + 1 } := rfl

/-! ### Results without a flag -/

/-- Settles O23: the wrapping sum, whose number is the sum mod 256, and the copy are results
alone. -/
theorem addConstAndSetRegWriteNoFlag : Obligations.AddConstAndSetRegWriteNoFlag := by
  unfold Obligations.AddConstAndSetRegWriteNoFlag
  refine ⟨fun x nn s => ?addConst, fun x y s => ?setReg⟩
  case addConst =>
    have hsum : (s.getV x + nn).toNat = ((s.getV x).toNat + nn.toNat) % 256 :=
      BitVec.toNat_add _ _
    rw [exec_addConst, ← hsum]
    obtain ⟨t, hexec, hresult, hrest⟩ := writeResult_spec x (s.getV x + nn) s
    exact ⟨t, hexec, congrArg BitVec.toNat hresult, hrest⟩
  case setReg => rw [exec_setReg]; exact writeResult_spec x (s.getV y) s

/-- A result alone, told bit by bit. -/
theorem writeResult_spec_of_bits {r : Byte} {f : Nat → Bool} (hbits : ∀ k, r.getLsbD k = f k)
    (x : Nibble) (s : State) :
    ∃ t, writeResult x r s = .next t ∧ (∀ k, (t.getV x).getLsbD k = f k) ∧
      t.pc = s.pc + 2#16 ∧ OnlyRegsAndPc (fun q => q = x) s t := by
  obtain ⟨t, hexec, hresult, hrest⟩ := writeResult_spec x r s
  exact ⟨t, hexec, fun k => by rw [hresult, hbits], hrest⟩

/-- Settles O24: each operation is the bit operation of bytes, written as a result alone. -/
theorem logicOperationsAreBitwise : Obligations.LogicOperationsAreBitwise := by
  unfold Obligations.LogicOperationsAreBitwise
  refine ⟨fun x y s => ?or, fun x y s => ?and, fun x y s => ?xor⟩
  case or => rw [exec_orReg]; exact writeResult_spec_of_bits (fun _ => BitVec.getLsbD_or) x s
  case and => rw [exec_andReg]; exact writeResult_spec_of_bits (fun _ => BitVec.getLsbD_and) x s
  case xor => rw [exec_xorReg]; exact writeResult_spec_of_bits (fun _ => BitVec.getLsbD_xor) x s

/-- Settles O29: the draw is taken from a state that differs in the counter alone. -/
theorem randomMasksAFreshDraw : Obligations.RandomMasksAFreshDraw := by
  unfold Obligations.RandomMasksAFreshDraw
  intro x nn s
  obtain ⟨t, hexec, hbits, hpc, hregs, hmem, hi, hstack, hfb, hports, hdraws⟩ :=
    writeResult_spec_of_bits (r := Config.rng s.draws &&& nn) (fun _ => BitVec.getLsbD_and) x
      { s with draws := s.draws + 1 }
  exact ⟨t, (exec_random x nn s).trans hexec, hbits, hdraws, hpc, hregs, hmem, hi, hstack, hfb,
    hports⟩

/-! ### The shifts -/

theorem lowBitOf_toNat (a : Byte) : (lowBitOf a).toNat = a.toNat % 2 := by
  rw [lowBitOf, BitVec.getLsbD, Nat.toNat_testBit, pow_zero, Nat.div_one]

theorem highBitOf_toNat (a : Byte) : (highBitOf a).toNat = a.toNat / 128 := by
  rw [highBitOf, BitVec.getLsbD, Nat.toNat_testBit]
  omega

theorem toNat_ushiftRight_one (a : Byte) : (a >>> 1).toNat = a.toNat / 2 := by
  rw [BitVec.toNat_ushiftRight, Nat.shiftRight_one]

theorem toNat_shiftLeft_one (a : Byte) : (a <<< 1).toNat = 2 * a.toNat % 256 := by
  rw [BitVec.toNat_shiftLeft, Nat.shiftLeft_eq, pow_one, Nat.mul_comm]

/-- Settles O28: the shifted byte as a number, and the bit shifted out as the flag. -/
theorem shiftsWriteTheBitShiftedOut : Obligations.ShiftsWriteTheBitShiftedOut := by
  unfold Obligations.ShiftsWriteTheBitShiftedOut
  refine ⟨fun x s => ?right, fun x s => ?left⟩
  case right =>
    rw [exec_shiftRight, ← toNat_ushiftRight_one, ← lowBitOf_toNat]
    exact writeResultAndFlag_spec x _ _ s
  case left =>
    rw [exec_shiftLeft, ← toNat_shiftLeft_one, ← highBitOf_toNat]
    exact writeResultAndFlag_spec x _ _ s

end Sys2Proof.Machine
end

section
/-!
PROOFS. The canonical form of memory (R60; log 26): its bytes determine it.
-/

namespace Sys2Proof.Machine

theorem wf_cons_iff {c : Host.Cell} {m : Memory} :
    Memory.wf (c :: m) ↔
      (∀ d ∈ m, c.1 < d.1) ∧ (c.1 < 4096 ∧ c.2 ≠ resetByte c.1) ∧ Memory.wf m := by
  rw [Memory.wf, List.pairwise_cons, List.forall_mem_cons, Memory.wf]
  tauto

/-- A listed cell is read as listed, which is not the byte of reset. -/
theorem read_head_ne {c : Host.Cell} {m : Memory} (h : Memory.wf (c :: m)) :
    Memory.read (c :: m) c.1 ≠ resetByte c.1 := by
  obtain ⟨-, ⟨-, hne⟩, -⟩ := wf_cons_iff.mp h
  rwa [read_cons, if_pos rfl]

/-- In memories that read the same, no cell is listed below every cell of the other. -/
theorem not_forall_mem_lt {c : Host.Cell} {m m' : Memory} (h : Memory.wf (c :: m))
    (hread : ∀ a, Memory.read (c :: m) a = m'.read a) : ¬ ∀ d ∈ m', c.1 < d.1 := fun hlt =>
  read_head_ne h ((hread c.1).trans (read_of_lt m' c.1 hlt))

theorem forall_mem_cons_lt {k : Nat} {c : Host.Cell} {m : Memory} (h : Memory.wf (c :: m))
    (hk : k < c.1) : ∀ d ∈ c :: m, k < d.1 :=
  List.forall_mem_cons.mpr ⟨hk, fun d hd => hk.trans ((wf_cons_iff.mp h).1 d hd)⟩

/-- Without its head, a memory reads as before but at the head's address. -/
theorem read_tail {c : Host.Cell} {m : Memory} (h : Memory.wf (c :: m)) (a : Nat) :
    m.read a = if c.1 = a then resetByte a else Memory.read (c :: m) a := by
  split
  case isTrue ha => exact read_of_lt m a (ha ▸ (wf_cons_iff.mp h).1)
  case isFalse ha => rw [read_cons, if_neg ha]

/-- Settles O15: by induction on both lists. The lower of the two heads would read as listed in one
memory and as unlisted in the other, so the heads agree, and then the tails read the same. -/
theorem canonicalMemoryIsDeterminedByItsBytes :
    Obligations.CanonicalMemoryIsDeterminedByItsBytes := by
  unfold Obligations.CanonicalMemoryIsDeterminedByItsBytes
  intro m
  induction m with
  | nil =>
    rintro (_ | ⟨c', m'⟩) - h' hread
    · rfl
    · exact absurd nofun (not_forall_mem_lt h' fun a => (hread a).symm)
  | cons c m ih =>
    rintro (_ | ⟨c', m'⟩) h h' hread
    · exact absurd nofun (not_forall_mem_lt h hread)
    · have haddr : c.1 = c'.1 := by
        rcases Nat.lt_trichotomy c.1 c'.1 with hlt | heq | hgt
        · exact absurd (forall_mem_cons_lt h' hlt) (not_forall_mem_lt h hread)
        · exact heq
        · exact absurd (forall_mem_cons_lt h hgt) (not_forall_mem_lt h' fun a => (hread a).symm)
      have hbyte : c.2 = c'.2 := by
        have hhead := hread c.1
        rwa [read_cons, read_cons, if_pos rfl, if_pos haddr.symm] at hhead
      have htail : ∀ a, Memory.read m a = Memory.read m' a := fun a => by
        rw [read_tail h, read_tail h', haddr, hread]
      obtain ⟨-, -, hm⟩ := wf_cons_iff.mp h
      obtain ⟨-, -, hm'⟩ := wf_cons_iff.mp h'
      rw [Prod.ext haddr hbyte, ih m' hm hm' htail]

end Sys2Proof.Machine
end

section
/-!
PROOFS. The address register (R212, R216) and the blocks at `I` (R213 to R215).
-/

namespace Sys2Proof.Machine

/-! ### What `exec` answers -/

theorem exec_addI (x : Nibble) (s : State) :
    exec (.addI x) s = .next ({ s with i := s.i + (s.getV x).setWidth 16 }.advance .normal) := rfl

theorem exec_fontChar (x : Nibble) (s : State) : exec (.fontChar x) s = execFontChar x s := rfl

theorem exec_bcd (x : Nibble) (s : State) : exec (.bcd x) s = execBcd x s := rfl

theorem exec_dump (x : Nibble) (s : State) : exec (.dump x) s = execDump x s := rfl

theorem exec_load (x : Nibble) (s : State) : exec (.load x) s = execLoad x s := rfl

/-! ### The address register -/

/-- Settles O31: the sum of 16-bit words, whose number is the sum mod 65536. -/
theorem addIWrapsAtSixteenBits : Obligations.AddIWrapsAtSixteenBits := by
  unfold Obligations.AddIWrapsAtSixteenBits
  intro x s
  obtain ⟨hi, hrest⟩ := setI_advance_spec (s.i + (s.getV x).setWidth 16) s
  refine ⟨_, exec_addI x s, ?sum, hrest⟩
  case sum => rw [hi, BitVec.toNat_add, BitVec.toNat_setWidth_of_le (by decide)]

/-- Settles O32: glyph `v` is at `5 * v`, far below the wrap of `I`; above 15 is the fault. -/
theorem fontCharPointsAtGlyph : Obligations.FontCharPointsAtGlyph := by
  unfold Obligations.FontCharPointsAtGlyph
  refine fun x s => ⟨fun hglyph => ?points, fun hover => ?faults⟩
  case points =>
    obtain ⟨hi, hrest⟩ := setI_advance_spec (BitVec.ofNat 16 (5 * (s.getV x).toNat)) s
    rw [exec_fontChar, execFontChar_eq, if_pos hglyph]
    refine ⟨_, rfl, ?address, hrest⟩
    case address => rw [hi, BitVec.toNat_ofNat, Nat.mod_eq_of_lt (by omega)]
  case faults => exact exists_faulted_of_faultOf_some (if_pos hover)

/-! ### Blocks written -/

/-- A write of memory and the Normal advance: the frame both leave as it was. -/
theorem setMem_advance_frame (mem : Memory) (s : State) :
    let t := { s with mem := mem }.advance .normal
    t.pc = s.pc + 2#16 ∧ SameRegsBut (fun _ => False) s t ∧ t.i = s.i ∧ t.stack = s.stack ∧
      t.fb = s.fb ∧ SameTimersAndPorts s t ∧ t.draws = s.draws :=
  ⟨nextPc_normal s.pc, fun r _ => getV_congr rfl r, rfl, rfl, rfl, ⟨rfl, rfl, rfl, rfl, rfl⟩, rfl⟩

/-- Byte `k` of a block that was written. -/
theorem read_writeAll_inside {m : Memory} (hm : m.wf) {a k : Nat} {bs : List Byte}
    (h : a + bs.length ≤ 4096) (hk : k < bs.length) :
    (m.writeAll a bs).read (a + k) = bs.getD k 0#8 := by
  rw [read_writeAll hm h, if_neg (by omega), Nat.add_sub_cancel_left]

/-- The three digits of a byte are themselves below 256 (R213). -/
theorem bcdDigits_toNat (v : Byte) :
    ((bcdDigits v).getD 0 0#8).toNat = v.toNat / 100 ∧
      ((bcdDigits v).getD 1 0#8).toNat = v.toNat / 10 % 10 ∧
      ((bcdDigits v).getD 2 0#8).toNat = v.toNat % 10 := by
  have hv := v.isLt
  refine ⟨?_, ?_, ?_⟩ <;> exact (BitVec.toNat_ofNat _ _).trans (Nat.mod_eq_of_lt (by omega))

/-- Settles O33: the digits are the block written at `I`. -/
theorem bcdStoresThreeDigits : Obligations.BcdStoresThreeDigits := by
  unfold Obligations.BcdStoresThreeDigits
  refine fun x s hmem => ⟨fun hfits => ?stores, fun hover => ?faults⟩
  case stores =>
    have hblock : s.i.toNat + (bcdDigits (s.getV x)).length ≤ 4096 := hfits
    obtain ⟨hhundreds, htens, hones⟩ := bcdDigits_toNat (s.getV x)
    have hread : ∀ k < 3, (s.mem.writeAll s.i.toNat (bcdDigits (s.getV x))).read (s.i.toNat + k) =
        (bcdDigits (s.getV x)).getD k 0#8 := fun k hk => read_writeAll_inside hmem hblock hk
    rw [exec_bcd, execBcd_eq]
    exact ⟨_, if_pos hfits, (congrArg BitVec.toNat (hread 0 (by decide))).trans hhundreds,
      (congrArg BitVec.toNat (hread 1 (by decide))).trans htens,
      (congrArg BitVec.toNat (hread 2 (by decide))).trans hones,
      sameMemOutside_writeAll s _ rfl rfl, setMem_advance_frame _ s⟩
  case faults =>
    exact exists_faulted_of_faultOf_some (blockFault_of_gt (by decide) (Nat.lt_succ_of_le hover))

/-- Settles O34: the registers `V0` to `Vx` are the block written at `I`. -/
theorem dumpStoresTheBlock : Obligations.DumpStoresTheBlock := by
  unfold Obligations.DumpStoresTheBlock
  refine fun x s hmem => ⟨fun hfits => ?stores, fun hover => ?faults⟩
  case stores =>
    have hlength := getBlock_length s x
    have hblock : s.i.toNat + (s.getBlock x).length ≤ 4096 := by rw [hlength]; exact hfits
    rw [exec_dump, execDump_eq]
    refine ⟨_, if_pos hfits, fun r hr => ?byte, sameMemOutside_writeAll s _ hlength rfl,
      setMem_advance_frame _ s⟩
    case byte =>
      rw [advance_mem, read_writeAll_inside hmem hblock (by omega), getBlock_getD s x _ hr,
        BitVec.ofNat_toNat, BitVec.setWidth_eq]
  case faults =>
    exact exists_faulted_of_faultOf_some
      (blockFault_of_gt (Nat.succ_pos _) (Nat.lt_succ_of_le hover))

/-! ### Blocks read -/

/-- Settles O35: the bytes of the block at `I` are the registers written. -/
theorem loadReadsTheBlock : Obligations.LoadReadsTheBlock := by
  unfold Obligations.LoadReadsTheBlock
  refine fun x s => ⟨fun hfits => ?loads, fun hover => ?faults⟩
  case loads =>
    have hregs : ∀ r : Nibble, (s.setBlock (blockBytes s (x.toNat + 1))).getV r =
        if r.toNat ≤ x.toNat then s.mem.read (s.i.toNat + r.toNat) else s.getV r := fun r => by
      rw [getV_setBlock, blockBytes_length]
      simp only [Nat.lt_succ_iff]
      split
      case isTrue hr => exact blockBytes_getD s _ _ (Nat.lt_succ_of_le hr)
      case isFalse => rfl
    rw [exec_load, execLoad_eq]
    exact ⟨_, if_pos hfits, fun r hr => (hregs r).trans (if_pos hr), nextPc_normal s.pc,
      onlyRegsAndPc_of_sameRegsBut fun r hr => (hregs r).trans (if_neg hr)⟩
  case faults =>
    exact exists_faulted_of_faultOf_some
      (blockFault_of_gt (Nat.succ_pos _) (Nat.lt_succ_of_le hover))

/-- Settles O36: the load reads back what the dump wrote from the registers, and keeps those above
`Vx`. -/
theorem loadAfterDumpKeepsRegisters : Obligations.LoadAfterDumpKeepsRegisters := by
  unfold Obligations.LoadAfterDumpKeepsRegisters
  intro x s hmem hfits
  obtain ⟨t, hdump, hstored, -, -, hdumped, hi, -⟩ := (dumpStoresTheBlock x s hmem).1 hfits
  obtain ⟨u, hload, hloaded, -, hkept, hsame, -⟩ := (loadReadsTheBlock x t).1 (by rwa [hi])
  refine ⟨t, u, hdump, hload, fun r => ?reg, hsame⟩
  case reg =>
    by_cases hr : r.toNat ≤ x.toNat
    · rw [hloaded r hr, hi, hstored r hr]
    · rw [hkept r hr, hdumped r not_false]

end Sys2Proof.Machine
end

section
/-!
PROOFS. The sprite drawn (R241, R242): the loop over rows and columns flips a list of pixels, which
are pairwise distinct, so each flips once and collides on what it held before the drawing.
-/

namespace Sys2Proof.Machine

/-- A pixel of the framebuffer, its column and its row (R36). -/
abbrev Pixel := Fin 64 × Fin 32

/-! ### Pixels flipped one after the other -/

/-- A set sprite bit on a pixel flips it, and collides if it was set (R242). -/
def flipPixel (k : Canvas) (z : Pixel) : Canvas :=
  (k.1.set z.1 z.2 (!k.1.get z.1 z.2), k.2 || k.1.get z.1 z.2)

theorem get_flipPixel (k : Canvas) (z w : Pixel) :
    (flipPixel k z).1.get w.1 w.2 = (k.1.get w.1 w.2 ^^ decide (w = z)) := by
  rw [flipPixel, get_set]
  by_cases hw : w = z
  · subst hw; simp
  · have hne : ¬ (w.1 = z.1 ∧ w.2 = z.2) := fun h => hw (Prod.ext h.1 h.2)
    rw [if_neg hne, decide_eq_false hw, Bool.xor_false]

/-- Distinct pixels flip once each. -/
theorem get_foldl_flipPixel {l : List Pixel} (hl : l.Nodup) (k : Canvas) (w : Pixel) :
    (l.foldl flipPixel k).1.get w.1 w.2 = (k.1.get w.1 w.2 ^^ decide (w ∈ l)) := by
  induction l generalizing k with
  | nil => simp
  | cons z l ih =>
    obtain ⟨hz, hl⟩ := List.nodup_cons.mp hl
    rw [List.foldl_cons, ih hl, get_flipPixel]
    by_cases hw : w = z
    · subst hw; simp [hz]
    · simp [hw]

/-- Distinct pixels collide on what they held before any was flipped. -/
theorem collision_foldl_flipPixel {l : List Pixel} (hl : l.Nodup) (k : Canvas) :
    (l.foldl flipPixel k).2 = true ↔ k.2 = true ∨ ∃ w ∈ l, k.1.get w.1 w.2 = true := by
  induction l generalizing k with
  | nil => simp
  | cons z l ih =>
    obtain ⟨hz, hl⟩ := List.nodup_cons.mp hl
    have hkept : ∀ w ∈ l, (flipPixel k z).1.get w.1 w.2 = k.1.get w.1 w.2 := fun w hw => by
      have hne : w ≠ z := fun h => hz (h ▸ hw)
      rw [get_flipPixel, decide_eq_false hne, Bool.xor_false]
    have hrest : (∃ w ∈ l, (flipPixel k z).1.get w.1 w.2 = true) ↔
        ∃ w ∈ l, k.1.get w.1 w.2 = true :=
      exists_congr fun w => and_congr_right fun hw => by rw [hkept w hw]
    rw [List.foldl_cons, ih hl, hrest, List.exists_mem_cons_iff, ← or_assoc]
    simp [flipPixel]

/-! ### The pixels of a sprite -/

/-- The pixels under the set bits of one row. -/
def rowPixels (row : Byte) (x0 y0 : Nat) : List Pixel :=
  ((List.range 8).filter (spriteBit row)).map fun c => (Fin.ofNat 64 (x0 + c), Fin.ofNat 32 y0)

/-- The pixels under the set bits of the rows from row `y0` on. -/
def spritePixels (x0 : Nat) : Nat → List Byte → List Pixel
  | _, [] => []
  | y0, row :: rows => rowPixels row x0 y0 ++ spritePixels x0 (y0 + 1) rows

theorem drawRow_eq_foldl (row : Byte) (x0 y0 : Nat) (k : Canvas) :
    drawRow row x0 (Fin.ofNat 32 y0) k = (rowPixels row x0 y0).foldl flipPixel k := by
  rw [rowPixels, List.foldl_map, List.foldl_filter]
  rfl

theorem drawRows_eq_foldl (x0 y0 : Nat) (rows : List Byte) (k : Canvas) :
    drawRows x0 y0 rows k = (spritePixels x0 y0 rows).foldl flipPixel k := by
  induction rows generalizing y0 k with
  | nil => rfl
  | cons row rows ih => rw [drawRows, drawRow_eq_foldl, ih, spritePixels, List.foldl_append]

theorem mem_rowPixels {row : Byte} {x0 y0 : Nat} {w : Pixel} :
    w ∈ rowPixels row x0 y0 ↔
      ∃ c < 8, spriteBit row c = true ∧ w.1.val = (x0 + c) % 64 ∧ w.2.val = y0 % 32 := by
  simp only [rowPixels, List.mem_map, List.mem_filter, List.mem_range, Prod.ext_iff, Fin.ext_iff,
    Fin.val_ofNat, and_assoc, eq_comm (a := w.1.val), eq_comm (a := w.2.val)]

/-- The rows below the first are those of the same sprite one row further down. -/
theorem mem_spritePixels {x0 y0 : Nat} {rows : List Byte} {w : Pixel} :
    w ∈ spritePixels x0 y0 rows ↔
      ∃ r c, r < rows.length ∧ c < 8 ∧ spriteBit (rows.getD r 0#8) c = true ∧
        w.1.val = (x0 + c) % 64 ∧ w.2.val = (y0 + r) % 32 := by
  induction rows generalizing y0 with
  | nil => simp [spritePixels]
  | cons row rows ih =>
    rw [spritePixels, List.mem_append, mem_rowPixels, ih]
    have hdown : ∀ r, y0 + 1 + r = y0 + (r + 1) := fun r => by omega
    simp only [hdown]
    constructor
    case mp =>
      rintro (⟨c, hc, hbit, hpixel⟩ | ⟨r, c, hr, hrest⟩)
      · exact ⟨0, c, Nat.succ_pos _, hc, hbit, hpixel⟩
      · exact ⟨r + 1, c, Nat.succ_lt_succ hr, hrest⟩
    case mpr =>
      rintro ⟨_ | r, c, hr, hc, hbit, hpixel⟩
      · exact .inl ⟨c, hc, hbit, hpixel⟩
      · exact .inr ⟨r, c, Nat.lt_of_succ_lt_succ hr, hc, hbit, hpixel⟩

/-- Eight columns in a row are distinct on a screen of 64. -/
theorem nodup_rowPixels (row : Byte) (x0 y0 : Nat) : (rowPixels row x0 y0).Nodup := by
  refine List.Nodup.map_on (fun c hc c' hc' heq => ?_) (List.nodup_range.filter _)
  have hlt := List.mem_range.mp (List.mem_of_mem_filter hc)
  have hlt' := List.mem_range.mp (List.mem_of_mem_filter hc')
  have hcolumn : (x0 + c) % 64 = (x0 + c') % 64 := congrArg (fun w : Pixel => w.1.val) heq
  omega

/-- At most 32 rows one below the other are distinct on a screen of 32. -/
theorem nodup_spritePixels {rows : List Byte} (h : rows.length ≤ 32) (x0 y0 : Nat) :
    (spritePixels x0 y0 rows).Nodup := by
  induction rows generalizing y0 with
  | nil => exact List.nodup_nil
  | cons row rows ih =>
    refine (nodup_rowPixels row x0 y0).append (ih (Nat.le_of_succ_le h) (y0 + 1)) ?_
    intro w hrow hbelow
    obtain ⟨-, -, -, -, hp⟩ := mem_rowPixels.mp hrow
    obtain ⟨r, -, hr, -, -, -, hp'⟩ := mem_spritePixels.mp hbelow
    rw [List.length_cons] at h
    omega

/-! ### The sprite at `I` -/

/-- The pixels a draw flips. -/
def drawnPixels (x y n : Nibble) (s : State) : List Pixel :=
  spritePixels (s.getV x).toNat (s.getV y).toNat (blockBytes s n.toNat)

theorem nodup_drawnPixels (x y n : Nibble) (s : State) : (drawnPixels x y n s).Nodup := by
  refine nodup_spritePixels ?_ _ _
  rw [blockBytes_length]
  omega

/-- The loop flips exactly the pixels that the coordinates of R241 name. -/
theorem mem_drawnPixels {x y n : Nibble} {s : State} {q : Fin 64} {p : Fin 32} :
    (q, p) ∈ drawnPixels x y n s ↔ SpriteCovers s x y n q p := by
  rw [drawnPixels, mem_spritePixels, SpriteCovers, blockBytes_length]
  refine exists_congr fun r => exists_congr fun c => and_congr_right fun hr => ?_
  rw [blockBytes_getD s n.toNat r hr, spriteBit]

theorem drawnCanvas_eq_foldl (x y n : Nibble) (s : State) :
    drawnCanvas x y n s = (drawnPixels x y n s).foldl flipPixel (s.fb, false) :=
  drawRows_eq_foldl _ _ _ _

theorem get_drawnCanvas_of_covers {x y n : Nibble} {s : State} {q : Fin 64} {p : Fin 32}
    (h : SpriteCovers s x y n q p) : (drawnCanvas x y n s).1.get q p = !s.fb.get q p := by
  rw [drawnCanvas_eq_foldl, get_foldl_flipPixel (nodup_drawnPixels x y n s) _ (q, p),
    decide_eq_true (mem_drawnPixels.mpr h), Bool.xor_true]

theorem get_drawnCanvas_of_not_covers {x y n : Nibble} {s : State} {q : Fin 64} {p : Fin 32}
    (h : ¬ SpriteCovers s x y n q p) : (drawnCanvas x y n s).1.get q p = s.fb.get q p := by
  rw [drawnCanvas_eq_foldl, get_foldl_flipPixel (nodup_drawnPixels x y n s) _ (q, p),
    decide_eq_false (mt mem_drawnPixels.mp h), Bool.xor_false]

theorem collision_drawnCanvas (x y n : Nibble) (s : State) :
    (drawnCanvas x y n s).2 = true ↔ ∃ q p, SpriteCovers s x y n q p ∧ s.fb.get q p = true := by
  rw [drawnCanvas_eq_foldl, collision_foldl_flipPixel (nodup_drawnPixels x y n s)]
  simp only [Bool.false_eq_true, false_or, Prod.exists, mem_drawnPixels]

/-! ### The obligations -/

theorem exec_draw (x y n : Nibble) (s : State) : exec (.draw x y n) s = execDraw x y n s := rfl

/-- Settles O38: the canvas flips the covered pixels and collides on those that were set; the
flag is written over it. -/
theorem drawXorsTheSprite : Obligations.DrawXorsTheSprite := by
  unfold Obligations.DrawXorsTheSprite
  refine fun x y n s => ⟨fun hfits => ?draws, fun hn hover => ?faults⟩
  case draws =>
    rw [exec_draw, execDraw_eq]
    refine ⟨_, if_pos hfits, fun q p => get_drawnCanvas_of_covers,
      fun q p => get_drawnCanvas_of_not_covers, fun hhit => ?set, fun hmiss => ?clear,
      nextPc_normal s.pc, fun r hr => getV_setV_ne _ _ hr, fun _ => rfl, rfl, rfl,
      ⟨rfl, rfl, rfl, rfl, rfl⟩, rfl⟩
    case set =>
      rw [advance_getV, getV_setV_same, (collision_drawnCanvas x y n s).mpr hhit]
      rfl
    case clear =>
      have hnone := eq_false_of_ne_true (mt (collision_drawnCanvas x y n s).mp hmiss)
      rw [advance_getV, getV_setV_same, hnone]
      rfl
  case faults => exact exists_faulted_of_faultOf_some (blockFault_of_gt hn hover)

/-- The pixels covered depend on `I`, the two coordinates and memory. -/
theorem spriteCovers_congr {s t : State} {x y n : Nibble} (hi : t.i = s.i) (hmem : SameMem s t)
    (hx : t.getV x = s.getV x) (hy : t.getV y = s.getV y) (q : Fin 64) (p : Fin 32) :
    SpriteCovers t x y n q p ↔ SpriteCovers s x y n q p := by
  unfold SpriteCovers
  simp only [hi, hx, hy, hmem _]

/-- Settles O39: a draw changes nothing that says which pixels it covers, so the second flips back
what the first flipped. -/
theorem drawTwiceRestoresTheImage : Obligations.DrawTwiceRestoresTheImage := by
  unfold Obligations.DrawTwiceRestoresTheImage
  intro x y n s hx hy hfits
  obtain ⟨t, hfirst, hflip, hkeep, -, -, -, hregs, hmem, hi, -⟩ :=
    (drawXorsTheSprite x y n s).1 hfits
  obtain ⟨u, hsecond, hflip', hkeep', -⟩ := (drawXorsTheSprite x y n t).1 (by rwa [hi])
  have hcovers := spriteCovers_congr (n := n) hi hmem (hregs x hx) (hregs y hy)
  refine ⟨t, u, hfirst, hsecond, framebuffer_ext fun q p => ?pixel⟩
  case pixel =>
    by_cases h : SpriteCovers s x y n q p
    · rw [hflip' q p ((hcovers q p).mpr h), hflip q p h, Bool.not_not]
    · rw [hkeep' q p (mt (hcovers q p).mp h), hkeep q p h]

end Sys2Proof.Machine
end
